-- ==== Sys2Proof/Word.lean ====
section
/-! DEFINITION. The word types of the block (00_scope.md R10, 30_encoding.md R60): every value is an unsigned
integer of a stated width, bit 0 the least significant. -/

namespace Sys2Proof

/-- A command word, the accumulator, and the data word of a response: 32 bits (R7, R20, R63). -/
abbrev Word := BitVec 32

/-- A buffer entry, an operand field, a status code: 8 bits (R20, R61, R63). -/
abbrev Byte := BitVec 8

/-- A 6-bit group of the text frame (R120). -/
abbrev Group := BitVec 6

/-- The width of `BIN_LEN` and `CHR_LEN`: 6 bits (R20). -/
abbrev Length := BitVec 6

/-- A triple of payload bytes as one 24-bit value (R123). -/
abbrev Triple := BitVec 24

end Sys2Proof
end

