-- ==== Sys2Proof/Syntax.lean ====
section
/-! DEFINITION. The commands of the block (30_encoding.md R64), their formats (R61), and the lines of the command
assembler with its pseudo-instructions (R67, R68). -/

namespace Sys2Proof

/-- A decoded command: one constructor per row of the opcode map (R64). Operands are the 8-bit fields of the word,
untransformed (R62). -/
inductive Instr where
  | crcInit
  | crcByte (imm : Byte)
  | crcRes
  | binWr (idx imm : Byte)
  | binRd (idx : Byte)
  | binLen (imm : Byte)
  | binGetlen
  | chrWr (idx imm : Byte)
  | chrRd (idx : Byte)
  | chrLen (imm : Byte)
  | chrGetlen
  | txtEnc
  | txtDec
  deriving DecidableEq, Repr

/-- The thirteen opcodes of R64, without operands. -/
inductive Opcode where
  | crcInit | crcByte | crcRes
  | binWr | binRd | binLen | binGetlen
  | chrWr | chrRd | chrLen | chrGetlen
  | txtEnc | txtDec
  deriving DecidableEq, Repr

/-- The four formats of R61: no operand, byte, index, index and byte. -/
inductive Format where
  | z | b | i | ib
  deriving DecidableEq, Repr

/-- The format column of R64. -/
def Opcode.format : Opcode → Format
  | .crcInit => .z
  | .crcByte => .b
  | .crcRes => .z
  | .binWr => .ib
  | .binRd => .i
  | .binLen => .b
  | .binGetlen => .z
  | .chrWr => .ib
  | .chrRd => .i
  | .chrLen => .b
  | .chrGetlen => .z
  | .txtEnc => .z
  | .txtDec => .z

/-- How many operands the assembly line of a format has (R67). -/
def Format.arity : Format → Nat
  | .z => 0
  | .b => 1
  | .i => 1
  | .ib => 2

/-- One line of command assembly: a plain command with its operands (R67), or a pseudo-instruction (R68).
Operands and text are the numbers as written, before any check. -/
inductive AsmLine where
  | plain (op : Opcode) (operands : List Nat)
  | crcSeq (bytes : List Nat)
  | crcStr (text : List Nat)
  | crcOf (bytes : List Nat)
  | binLoad (bytes : List Nat)
  | binLoads (text : List Nat)
  | chrLoad (text : List Nat)
  | binClear
  deriving DecidableEq, Repr

end Sys2Proof
end

