-- ==== Sys2Proof/Decode.lean ====
section
/-! DEFINITION. The command word: its fields (30_encoding.md R61), the opcode map (R64), the total decoder (R65,
R66) and, after it, the encoder. -/

namespace Sys2Proof

/-- `op = w[31:24]` (R61). -/
def opField (w : Word) : Byte := w.extractLsb' 24 8

/-- `idx = w[23:16]` (R61). -/
def idxField (w : Word) : Byte := w.extractLsb' 16 8

/-- `rsv = w[15:8]`, zero in every command (R61). -/
def rsvField (w : Word) : Byte := w.extractLsb' 8 8

/-- `imm = w[7:0]` (R61). -/
def immField (w : Word) : Byte := w.extractLsb' 0 8

/-- One row of the opcode map: a word `w` is selected when `(w AND mask) == pattern` (R64, whose column
`match` is `pattern` here). -/
structure OpcodeRow where
  opcode : Opcode
  pattern : Word
  mask : Word
  deriving DecidableEq, Repr

/-- The selection test of R64. -/
def OpcodeRow.selects (row : OpcodeRow) (w : Word) : Bool := w &&& row.mask == row.pattern

/-- The opcode map, row by row as R64 prints it. -/
def opcodeTable : List OpcodeRow :=
  [ ⟨.crcInit,   0x10000000#32, 0xFFFFFFFF#32⟩,
    ⟨.crcByte,   0x11000000#32, 0xFFFFFF00#32⟩,
    ⟨.crcRes,    0x12000000#32, 0xFFFFFFFF#32⟩,
    ⟨.binWr,     0x20000000#32, 0xFF00FF00#32⟩,
    ⟨.binRd,     0x21000000#32, 0xFF00FFFF#32⟩,
    ⟨.binLen,    0x22000000#32, 0xFFFFFF00#32⟩,
    ⟨.binGetlen, 0x23000000#32, 0xFFFFFFFF#32⟩,
    ⟨.chrWr,     0x28000000#32, 0xFF00FF00#32⟩,
    ⟨.chrRd,     0x29000000#32, 0xFF00FFFF#32⟩,
    ⟨.chrLen,    0x2A000000#32, 0xFFFFFF00#32⟩,
    ⟨.chrGetlen, 0x2B000000#32, 0xFFFFFFFF#32⟩,
    ⟨.txtEnc,    0x30000000#32, 0xFFFFFFFF#32⟩,
    ⟨.txtDec,    0x31000000#32, 0xFFFFFFFF#32⟩ ]

/-- The `op` column of R64. -/
def Opcode.code : Opcode → Byte
  | .crcInit => 0x10#8
  | .crcByte => 0x11#8
  | .crcRes => 0x12#8
  | .binWr => 0x20#8
  | .binRd => 0x21#8
  | .binLen => 0x22#8
  | .binGetlen => 0x23#8
  | .chrWr => 0x28#8
  | .chrRd => 0x29#8
  | .chrLen => 0x2A#8
  | .chrGetlen => 0x2B#8
  | .txtEnc => 0x30#8
  | .txtDec => 0x31#8

/-- `op` values not in the opcode map are reserved (R66). -/
def isReservedOp (op : Byte) : Bool := opcodeTable.all (fun row => row.opcode.code != op)

/-- The command of an opcode with the word's operand fields; a field its format does not use is dropped (the row's
mask has checked that it is zero, R64). -/
def Opcode.withOperands (op : Opcode) (idx imm : Byte) : Instr :=
  match op with
  | .crcInit => .crcInit
  | .crcByte => .crcByte imm
  | .crcRes => .crcRes
  | .binWr => .binWr idx imm
  | .binRd => .binRd idx
  | .binLen => .binLen imm
  | .binGetlen => .binGetlen
  | .chrWr => .chrWr idx imm
  | .chrRd => .chrRd idx
  | .chrLen => .chrLen imm
  | .chrGetlen => .chrGetlen
  | .txtEnc => .txtEnc
  | .txtDec => .txtDec

/-- Why a word is no command (R65(b)): its `op` is reserved (R66), or a field its format does not use is not zero. -/
inductive Illegal where
  | reservedOpcode
  | unusedFieldNotZero
  deriving DecidableEq, Repr

/-- Decoding, total over all 32-bit words (R65): the command of the row that selects the word, or why none does. -/
def decode (w : Word) : Except Illegal Instr :=
  match opcodeTable.find? (fun row => row.selects w) with
  | some row => .ok (row.opcode.withOperands (idxField w) (immField w))
  | none => .error (if isReservedOp (opField w) then .reservedOpcode else .unusedFieldNotZero)

/-- The opcode of a command. -/
def Instr.opcode : Instr → Opcode
  | .crcInit => .crcInit
  | .crcByte _ => .crcByte
  | .crcRes => .crcRes
  | .binWr _ _ => .binWr
  | .binRd _ => .binRd
  | .binLen _ => .binLen
  | .binGetlen => .binGetlen
  | .chrWr _ _ => .chrWr
  | .chrRd _ => .chrRd
  | .chrLen _ => .chrLen
  | .chrGetlen => .chrGetlen
  | .txtEnc => .txtEnc
  | .txtDec => .txtDec

/-- The `idx` field of a command's word: its index operand, or zero where the format has none (R61). -/
def Instr.idxOperand : Instr → Byte
  | .binWr idx _ => idx
  | .binRd idx => idx
  | .chrWr idx _ => idx
  | .chrRd idx => idx
  | .crcInit | .crcByte _ | .crcRes | .binLen _ | .binGetlen | .chrLen _ | .chrGetlen | .txtEnc | .txtDec => 0#8

/-- The `imm` field of a command's word: its byte or length operand, or zero where the format has none (R61). -/
def Instr.immOperand : Instr → Byte
  | .crcByte imm => imm
  | .binWr _ imm => imm
  | .binLen imm => imm
  | .chrWr _ imm => imm
  | .chrLen imm => imm
  | .crcInit | .crcRes | .binRd _ | .binGetlen | .chrRd _ | .chrGetlen | .txtEnc | .txtDec => 0#8

/-- A command word from its four fields (R61). -/
def packWord (op idx rsv imm : Byte) : Word := op ++ idx ++ rsv ++ imm

/-- The word of a command: its `op`, its operands in their fields, `rsv` and every unused field zero (R61, R64). -/
def encode (i : Instr) : Word := packWord i.opcode.code i.idxOperand 0#8 i.immOperand

/-- The command the decoder reads from the low `nbits` bits of `w`, the bits above them zero (the table gives every
row 32 bits). -/
def tableWord (nbits w : Nat) : Word := BitVec.ofNat 32 (w % 2 ^ nbits)

/-- The decoder as the opcode table numbers bits: bit 0 is the least significant of the one word. -/
def decodeTableWord (nbits w : Nat) : Option Instr :=
  match decode (tableWord nbits w) with
  | .ok i => some i
  | .error _ => none

end Sys2Proof
end

