-- ==== Sys2Proof/Config.lean ====
section
/-! DEFINITION. What an implementation of the block fixes (00_scope.md R7, R8) and the free values of the model
(00_scope.md R11 `draw()`). -/

namespace Sys2Proof.Config

/-- `CRC_POLY`, the reflected generator polynomial (R7). -/
def crcPoly : Word := 0xEDB88320#32

/-- `CRC_INIT` (R7). -/
def crcInit : Word := 0xFFFFFFFF#32

/-- `CRC_XOROUT`, the final complement (R7). -/
def crcXorOut : Word := 0xFFFFFFFF#32

/-- `N_BIN`, the capacity of the binary buffer (R7). -/
def nBin : Nat := 45

/-- `N_CHR`, the capacity of the text buffer (R7). -/
def nChr : Nat := 61

/-- `CHR_OFFSET`, added to each 6-bit group (R7). -/
def chrOffset : Byte := 0x20#8

/-- `CHR_ZERO`, the backtick that stands for group value 0 (R7). -/
def chrZero : Byte := 0x60#8

/-- `ACCEPT_SPACE` of the implementation that `State.reset` describes (R8, decision D17). The spec's default is
`true`; the constant has no body, so a claim about `State.reset` holds for both values. Assumption log 6, safe. -/
opaque acceptSpace : Bool

/-- The answers of `draw()` (R11, R26): the k-th draw of a run is `draw k`. A free value: the constant has no body,
so nothing can be proved about any answer. Assumption log 4, safe. -/
opaque draw : Nat → Byte

end Sys2Proof.Config
end

