-- ==== Sys2Proof/Machine/Codec.lean ====
section
/-! DEFINITION. The text frame as functions of byte sequences: the character map (42_textframe.md R120, R121), the
frame length (R122), triples and groups (R123), and the two directions of the codec (R124, R125). -/

namespace Sys2Proof.Machine

/-! ### Characters -/

/-- `enc_char` (R120). -/
def encChar (g : Group) : Byte := if g = 0#6 then Config.chrZero else g.setWidth 8 + Config.chrOffset

/-- `valid` (R121); `ACCEPT_SPACE` is its argument (R8). -/
def validChar (acceptSpace : Bool) (c : Byte) : Bool :=
  (decide (0x21#8 ≤ c) && decide (c ≤ 0x60#8)) || (c == 0x20#8 && acceptSpace)

/-- `dec_char` (R121): `(c - 0x20) mod 64`. Used on valid characters only. -/
def decChar (c : Byte) : Group := (c - Config.chrOffset).setWidth 6

/-! ### Frame layout -/

/-- `ceil(n/3)`, the number of triples of a payload of `n` bytes (R122). -/
def tripleCount (n : Nat) : Nat := (n + 2) / 3

/-- `L(n)`, the number of characters of a frame with payload length `n` (R122). -/
def frameLength (n : Nat) : Nat := 1 + 4 * tripleCount n

/-! ### Encoding -/

/-- `p(i)`: payload byte `i`, or the zero pad byte at and beyond the payload's end (R123). -/
def paddedByte (payload : List Byte) (i : Nat) : Byte := payload.getD i 0x00#8

/-- Triple `k`: `p(3k) || p(3k+1) || p(3k+2)` (R123). -/
def tripleOf (payload : List Byte) (k : Nat) : Triple :=
  paddedByte payload (3 * k) ++ paddedByte payload (3 * k + 1) ++ paddedByte payload (3 * k + 2)

/-- Group `j` of a triple, most significant first: `g0 = t[23:18]` to `g3 = t[5:0]` (R123). -/
def groupOf (t : Triple) (j : Nat) : Group := t.extractLsb' (18 - 6 * j) 6

/-- Character `i` of the frame: the count character, then the four characters of each triple (R122, R123). -/
def frameChar (payload : List Byte) (i : Nat) : Byte :=
  if i = 0 then encChar (BitVec.ofNat 6 payload.length)
  else encChar (groupOf (tripleOf payload ((i - 1) / 4)) ((i - 1) % 4))

/-- The frame of a payload: `out[0 .. L(n)-1]` of R124. -/
def encodeFrame (payload : List Byte) : List Byte :=
  (List.range (frameLength payload.length)).map (frameChar payload)

/-! ### Decoding -/

/-- The count that a line's first character gives (R125). -/
def lineCount (line : List Byte) : Nat := (decChar (line.getD 0 0x00#8)).toNat

/-- The group of character `i` of a line (R125). -/
def lineGroup (line : List Byte) (i : Nat) : Group := decChar (line.getD i 0x00#8)

/-- Triple `k` of a line: the groups of characters `1+4k` to `4+4k`, joined (R125). -/
def lineTriple (line : List Byte) (k : Nat) : Triple :=
  lineGroup line (1 + 4 * k) ++ lineGroup line (2 + 4 * k) ++ lineGroup line (3 + 4 * k) ++ lineGroup line (4 + 4 * k)

/-- Byte `j` of a triple, `t[23:16]`, `t[15:8]`, `t[7:0]` (R125). -/
def tripleByte (t : Triple) (j : Nat) : Byte := t.extractLsb' (16 - 8 * j) 8

/-- The payload `q[0 .. count-1]` of a line that passes the checks; the pad bits are dropped (R125). -/
def linePayload (line : List Byte) : List Byte :=
  (List.range (lineCount line)).map (fun i => tripleByte (lineTriple line (i / 3)) (i % 3))

end Sys2Proof.Machine
end

