-- ==== Sys2Proof/Machine/State.lean ====
section
/-! DEFINITION. The state of the block (10_state.md R20), what it answers (30_encoding.md R63, 60_exceptions.md
R150), what its host can do to it (00_scope.md R6, 70_reset_and_hazards.md R180 to R184), and the reasons a step can
stop. -/

namespace Sys2Proof.Machine

/-- The status of a response (R150). The codes `0x06` to `0xFF` are never produced (U6): they are no values here. -/
inductive Status where
  | ok
  | illegal
  | range
  | decChar
  | decCount
  | decLength
  deriving DecidableEq, Repr

/-- A response: an 8-bit status and a 32-bit data word (R63). -/
structure Response where
  status : Status
  data : Word
  deriving DecidableEq, Repr

/-- What the host does to the block, one act at a time (R6, R180, R181, R184; assumption log 1). -/
inductive HostEvent where
  /-- Issue a command word on the command port. -/
  | command (w : Word)
  /-- Receive the response to the previous command. -/
  | receive
  /-- Assert the reset input. -/
  | assertReset
  /-- Release the reset input. -/
  | releaseReset
  deriving DecidableEq, Repr

/-- One of the two addressable spaces (R40): the written entries, in the canonical form `Memory.wf` of Ops.lean. An
entry that is not listed is unwritten, its written-mark clear (R26; assumption log 3). -/
abbrev Memory := List Host.Cell

/-- Why a step is stuck. None is an exception of the hardware, which has none (R155). -/
inductive Fault where
  /-- The host issues a command while reset is asserted, against R181; the spec gives no step (U7). Raised by the
  host event `command`. Unsafe for a host that breaks the duty (assumption log 2). -/
  | commandDuringReset
  /-- The host issues a command before it received the previous response, against R184; the spec gives no step (U7).
  Raised by the host event `command`. Unsafe for a host that breaks the duty (assumption log 2). -/
  | commandBeforeResponse
  /-- The host waits for a response when none is outstanding (U8). Raised by the host event `receive`. Safe
  (assumption log 2). -/
  | noResponse
  /-- `BIN_LEN` above 45 at txt.enc, or `CHR_LEN` above 61 at txt.dec: an entry that does not exist (R41). No run
  reaches such a state (R28). Raised by txt.enc and txt.dec. Safe (assumption log 7). -/
  | noSuchEntry
  deriving DecidableEq, Repr

/-- Why an instruction has no meaning. -/
inductive Refusal where
  /-- An instruction the model has not reached. Raised by no arm: all thirteen commands have their meaning. Safe. -/
  | notModelled (mnemonic : String)
  deriving DecidableEq, Repr

/-- The state. The first five fields are the architectural state of R20, the written-marks of R26 among them; the
next two are the block's reset input and response port; the last four are the model's own. -/
structure State where
  /-- `ACC` (R21). -/
  acc : Word
  /-- `BIN[0..44]` and its written-marks (R24, R26). -/
  bin : Memory
  /-- `BIN_LEN` (R22). -/
  binLen : Length
  /-- `CHR[0..60]` and its written-marks (R25, R26). -/
  chr : Memory
  /-- `CHR_LEN` (R23). -/
  chrLen : Length
  /-- The reset input is asserted (R180, R181). -/
  inReset : Bool
  /-- The response the host has not received yet (R6, R184). -/
  outstanding : Option Response
  /-- `ACCEPT_SPACE` of this implementation (R8); no step writes it. Assumption log 6. -/
  acceptSpace : Bool
  /-- How many draws have been answered (R11, R26). Assumption log 4. -/
  draws : Nat
  /-- What the host does next, in order (R6, R12). Assumption log 1. -/
  script : List HostEvent
  /-- The responses the host has received, oldest first (R12). Assumption log 1. -/
  received : List Response
  deriving DecidableEq, Repr

/-- The reset state (R180) of an implementation with the given `ACCEPT_SPACE`, reset released (R182). -/
def State.resetOf (acceptSpace : Bool) : State :=
  { acc := 0xFFFFFFFF#32
    bin := []
    binLen := 0#6
    chr := []
    chrLen := 0#6
    inReset := false
    outstanding := none
    acceptSpace := acceptSpace
    draws := 0
    script := []
    received := [] }

/-- The machine right after reset (R180, R182); its `ACCEPT_SPACE` is the uninterpreted `Config.acceptSpace`. -/
def State.reset : State := State.resetOf Config.acceptSpace

end Sys2Proof.Machine
end

