-- ==== Sys2Proof/Machine/Ops.lean ====
section
/-! DEFINITION. The named operations over the state: reads and writes of the two buffer spaces, draws, ending a
command by a response, and what the host's other acts do. -/

namespace Sys2Proof.Machine

/-- What a step answers. -/
abbrev Result := Host.Outcome State Fault Refusal

/-! ### Buffer spaces -/

/-- The canonical form of a space of `size` entries: addresses strictly rising, each within the space (R40). Every
listed value differs from what an unlisted entry reads as, because that has no value of its own (R26). -/
abbrev Memory.wf (size : Nat) (m : Memory) : Prop :=
  m.Pairwise (fun x y => x.1 < y.1) ∧ ∀ x ∈ m, x.1 < size

/-- Entry `i` of a space: its value when its written-mark is set, `none` when it is unwritten (R26). -/
def Memory.entry : Memory → Nat → Option Byte
  | [], _ => none
  | (a, b) :: rest, i => if a = i then some b else Memory.entry rest i

/-- `m[i] <- v`, which sets the written-mark of entry `i` (R11, R26). -/
def Memory.write : Memory → Nat → Byte → Memory
  | [], i, v => [(i, v)]
  | (a, b) :: rest, i, v =>
    if i < a then (i, v) :: (a, b) :: rest
    else if i = a then (i, v) :: rest
    else (a, b) :: Memory.write rest i v

/-- Write a sequence to the entries from `start` on, in increasing order. -/
def Memory.writeFrom (m : Memory) (start : Nat) : List Byte → Memory
  | [] => m
  | v :: rest => Memory.writeFrom (m.write start v) (start + 1) rest

/-- Read entry `i` when `d` draws have been answered: its value, or the next draw when it is unwritten (R26); with
it, how many draws have then been answered. -/
def Memory.read (m : Memory) (d i : Nat) : Byte × Nat :=
  match m.entry i with
  | some v => (v, d)
  | none => (Config.draw d, d + 1)

/-- Read `n` entries from `start` on, each once and in increasing order (assumption log 5). -/
def Memory.readFrom (m : Memory) (d start : Nat) : Nat → List Byte × Nat
  | 0 => ([], d)
  | n + 1 =>
    match m.read d start with
    | (v, d') =>
      match Memory.readFrom m d' (start + 1) n with
      | (vs, d'') => (v :: vs, d'')

/-- How many of the entries `0 .. n-1` are unwritten. -/
def Memory.unwrittenBelow (m : Memory) : Nat → Nat
  | 0 => 0
  | n + 1 => Memory.unwrittenBelow m n + if (m.entry n).isNone then 1 else 0

/-! ### Field updates of the state -/

def State.setAcc (s : State) (v : Word) : State := { s with acc := v }
def State.setBin (s : State) (m : Memory) : State := { s with bin := m }
def State.setBinLen (s : State) (n : Length) : State := { s with binLen := n }
def State.setChr (s : State) (m : Memory) : State := { s with chr := m }
def State.setChrLen (s : State) (n : Length) : State := { s with chrLen := n }
def State.setInReset (s : State) (b : Bool) : State := { s with inReset := b }
def State.setOutstanding (s : State) (r : Option Response) : State := { s with outstanding := r }
def State.setDraws (s : State) (d : Nat) : State := { s with draws := d }
def State.setScript (s : State) (es : List HostEvent) : State := { s with script := es }
def State.setReceived (s : State) (rs : List Response) : State := { s with received := rs }

/-! ### Ending a command -/

/-- The 8-bit code of a status (R150). -/
def Status.code : Status → Byte
  | .ok => 0x00#8
  | .illegal => 0x01#8
  | .range => 0x02#8
  | .decChar => 0x03#8
  | .decCount => 0x04#8
  | .decLength => 0x05#8

/-- `respond(status, data)` (R11): the command ends and its response stands on the response port (R63). -/
def respond (st : Status) (data : Word) (s : State) : Result := .next (s.setOutstanding (some ⟨st, data⟩))

/-- `raise <STATUS>` (R11), the block's whole error behaviour (R151, R155): the response `(st, 0)`. It is given the
state from before the command, of which only the count of answered draws may have moved on (assumption log 4). -/
def raiseStatus (st : Status) (s : State) : Result := respond st 0#32 s

/-! ### The host's other acts -/

/-- Asserting reset puts the block into the reset state (R180) and loses an outstanding response (R181). The host's
script, what it has received, the parameter and the draws are not the block's state (assumption log 9). -/
def resetBlock (s : State) : State :=
  { s with
    acc := 0xFFFFFFFF#32
    bin := []
    binLen := 0#6
    chr := []
    chrLen := 0#6
    inReset := true
    outstanding := none }

/-- The outstanding response, if any, passes to the host (R6). -/
def deliver (s : State) : State :=
  { s with received := s.received ++ s.outstanding.toList, outstanding := none }

/-- The host receives the outstanding response (R6, R184); with none outstanding it waits for ever (U8). -/
def receiveResponse (s : State) : Result :=
  match s.outstanding with
  | some _ => .next (deliver s)
  | none => .fault .noResponse

end Sys2Proof.Machine
end

