-- ==== Sys2Proof/Machine/Operands.lean ====
section
/-! DEFINITION. The operand forms: an index into a buffer space (20_memory.md R40, R41), a length (41_buffers.md
R102, R106), a data byte, and the zero extension of a result to the data word (30_encoding.md R63). Each is used as
the field holds it, unsigned and unscaled (R62). -/

namespace Sys2Proof.Machine

/-- `zext_32` of a byte, as bin.rd and chr.rd answer it (R63, R101, R105). -/
def zextByte (b : Byte) : Word := b.setWidth 32

/-- `zext_32` of a length, as bin.getlen and chr.getlen answer it (R63, R103, R107). -/
def zextLength (n : Length) : Word := n.setWidth 32

/-- An index operand addresses an entry of a space of `size` entries (R41). -/
def indexInSpace (size : Nat) (idx : Byte) : Bool := idx.toNat < size

/-- A length operand is at most the capacity of its buffer (R102, R106). -/
def lengthInSpace (size : Nat) (imm : Byte) : Bool := imm.toNat ≤ size

/-- A length operand within its buffer, as the 6-bit register holds it (R102, R106). -/
def lengthOperand (imm : Byte) : Length := imm.setWidth 6

/-- A number of entries, as the 6-bit register holds it (R124, R125). -/
def lengthOfCount (n : Nat) : Length := BitVec.ofNat 6 n

end Sys2Proof.Machine
end

