-- ==== Sys2Proof/Machine/Flags.lean ====
section
/-! DEFINITION. The block has no condition flags (10_state.md R27): what reports on a command is the status of its
response. Here are the status computations: the range checks (60_exceptions.md R154) and the checks of txt.dec in
their order (42_textframe.md R125, 60_exceptions.md R152). -/

namespace Sys2Proof.Machine

/-- The status of an index operand: `RANGE` at or beyond the size of its space (R154). -/
def indexStatus (size : Nat) (idx : Byte) : Status := if indexInSpace size idx then .ok else .range

/-- The status of a length operand: `RANGE` above the capacity of its buffer (R154). -/
def lengthStatus (size : Nat) (imm : Byte) : Status := if lengthInSpace size imm then .ok else .range

/-- The status of a line at txt.dec, the first failing check deciding (R125): empty, an invalid character, a count
above 45, a length that is not that of the count. -/
def lineStatus (acceptSpace : Bool) (line : List Byte) : Status :=
  if line.length = 0 then .decLength
  else if line.any (fun c => !validChar acceptSpace c) then .decChar
  else if Config.nBin < lineCount line then .decCount
  else if line.length ≠ frameLength (lineCount line) then .decLength
  else .ok

end Sys2Proof.Machine
end

