-- ==== Sys2Proof/Machine/Buffers.lean ====
section
/-! DEFINITION. The buffer access commands (41_buffers.md R100 to R107). -/

namespace Sys2Proof.Machine

/-- Ends a command by `RANGE` or goes on with it: `if … then raise RANGE` of R100 to R106. -/
def unlessRange (st : Status) (s : State) (go : Result) : Result :=
  match st with
  | .ok => go
  | st => raiseStatus st s

/-- `bin.wr idx, imm` (R100). -/
def execBinWr (idx imm : Byte) (s : State) : Result :=
  unlessRange (indexStatus Config.nBin idx) s (respond .ok 0#32 (s.setBin (s.bin.write idx.toNat imm)))

/-- `bin.rd idx` (R101). -/
def execBinRd (idx : Byte) (s : State) : Result :=
  unlessRange (indexStatus Config.nBin idx) s
    (respond .ok (zextByte (s.bin.read s.draws idx.toNat).1) (s.setDraws (s.bin.read s.draws idx.toNat).2))

/-- `bin.len imm` (R102). -/
def execBinLen (imm : Byte) (s : State) : Result :=
  unlessRange (lengthStatus Config.nBin imm) s (respond .ok 0#32 (s.setBinLen (lengthOperand imm)))

/-- `bin.getlen` (R103). -/
def execBinGetlen (s : State) : Result := respond .ok (zextLength s.binLen) s

/-- `chr.wr idx, imm` (R104). -/
def execChrWr (idx imm : Byte) (s : State) : Result :=
  unlessRange (indexStatus Config.nChr idx) s (respond .ok 0#32 (s.setChr (s.chr.write idx.toNat imm)))

/-- `chr.rd idx` (R105). -/
def execChrRd (idx : Byte) (s : State) : Result :=
  unlessRange (indexStatus Config.nChr idx) s
    (respond .ok (zextByte (s.chr.read s.draws idx.toNat).1) (s.setDraws (s.chr.read s.draws idx.toNat).2))

/-- `chr.len imm` (R106). -/
def execChrLen (imm : Byte) (s : State) : Result :=
  unlessRange (lengthStatus Config.nChr imm) s (respond .ok 0#32 (s.setChrLen (lengthOperand imm)))

/-- `chr.getlen` (R107). -/
def execChrGetlen (s : State) : Result := respond .ok (zextLength s.chrLen) s

end Sys2Proof.Machine
end

