-- ==== Sys2Proof/Machine/Crc.lean ====
section
/-! DEFINITION. The CRC unit (40_crc32.md): the function (R80, R81), its table form, and crc.init, crc.byte, crc.res
(R82 to R84). -/

namespace Sys2Proof.Machine

/-- One round of the loop of R80: shift right, and XOR the polynomial in when the bit shifted out is 1. -/
def crcRound (x : Word) : Word := if x.getLsbD 0 then (x >>> 1) ^^^ Config.crcPoly else x >>> 1

/-- `k` rounds. -/
def crcRounds : Nat → Word → Word
  | 0, x => x
  | k + 1, x => crcRounds k (crcRound x)

/-- `crc_step8(a, b)` (R80). -/
def crcStep8 (a : Word) (b : Byte) : Word := crcRounds 8 (a ^^^ b.setWidth 32)

/-- The table-driven form that R80 permits: `(a >> 8) XOR T[(a XOR b) AND 0xFF]`, with `T[i] = crc_step8(0, i)`. -/
def crcStep8Table (a : Word) (b : Byte) : Word := (a >>> 8) ^^^ crcStep8 0#32 ((a ^^^ b.setWidth 32).setWidth 8)

/-- `Crc32(s)` (R81). -/
def crc32 (bytes : List Byte) : Word := bytes.foldl crcStep8 Config.crcInit ^^^ Config.crcXorOut

/-- `crc.init` (R82). -/
def execCrcInit (s : State) : Result := respond .ok 0#32 (s.setAcc Config.crcInit)

/-- `crc.byte imm` (R83). -/
def execCrcByte (imm : Byte) (s : State) : Result := respond .ok 0#32 (s.setAcc (crcStep8 s.acc imm))

/-- `crc.res` (R84); `ACC` is not written. -/
def execCrcRes (s : State) : Result := respond .ok (s.acc ^^^ Config.crcXorOut) s

end Sys2Proof.Machine
end

