-- ==== Sys2Proof/Machine/TextFrame.lean ====
section
/-! DEFINITION. txt.enc and txt.dec (42_textframe.md R124, R125). -/

namespace Sys2Proof.Machine

/-- The payload `BIN[0 .. BIN_LEN-1]`, an unwritten entry read as a draw, and the draws answered then (R124, R26). -/
def payloadRead (s : State) : List Byte × Nat := s.bin.readFrom s.draws 0 s.binLen.toNat

/-- The line `CHR[0 .. CHR_LEN-1]`, an unwritten entry read as a draw, and the draws answered then (R125, R26). -/
def lineRead (s : State) : List Byte × Nat := s.chr.readFrom s.draws 0 s.chrLen.toNat

/-- `CHR[0 ..] <- frame`, `CHR_LEN <- ` its length (R124). -/
def storeFrame (frame : List Byte) (s : State) : State :=
  (s.setChr (s.chr.writeFrom 0 frame)).setChrLen (lengthOfCount frame.length)

/-- `BIN[0 ..] <- payload`, `BIN_LEN <- ` its length (R125). -/
def storePayload (payload : List Byte) (s : State) : State :=
  (s.setBin (s.bin.writeFrom 0 payload)).setBinLen (lengthOfCount payload.length)

/-- `txt.enc` (R124). A `BIN_LEN` above 45 is unreachable (R28; assumption log 7). -/
def execTxtEnc (s : State) : Result :=
  if Config.nBin < s.binLen.toNat then .fault .noSuchEntry
  else respond .ok 0#32 (storeFrame (encodeFrame (payloadRead s).1) (s.setDraws (payloadRead s).2))

/-- `txt.dec` (R125). A `CHR_LEN` above 61 is unreachable (R28; assumption log 7). -/
def execTxtDec (s : State) : Result :=
  if Config.nChr < s.chrLen.toNat then .fault .noSuchEntry
  else
    match lineStatus s.acceptSpace (lineRead s).1 with
    | .ok => respond .ok 0#32 (storePayload (linePayload (lineRead s).1) (s.setDraws (lineRead s).2))
    | st => raiseStatus st (s.setDraws (lineRead s).2)

end Sys2Proof.Machine
end

