-- ==== Sys2Proof/Machine/Dispatch.lean ====
section
/-! DEFINITION. One arm per command of the opcode map (30_encoding.md R64), each a call of its meaning. -/

namespace Sys2Proof.Machine

def exec (i : Instr) (s : State) : Host.Outcome State Fault Refusal :=
  match i with
  | .crcInit => Sys2Proof.Machine.execCrcInit s
  | .crcByte imm => Sys2Proof.Machine.execCrcByte imm s
  | .crcRes => Sys2Proof.Machine.execCrcRes s
  | .binWr idx imm => Sys2Proof.Machine.execBinWr idx imm s
  | .binRd idx => Sys2Proof.Machine.execBinRd idx s
  | .binLen imm => Sys2Proof.Machine.execBinLen imm s
  | .binGetlen => Sys2Proof.Machine.execBinGetlen s
  | .chrWr idx imm => Sys2Proof.Machine.execChrWr idx imm s
  | .chrRd idx => Sys2Proof.Machine.execChrRd idx s
  | .chrLen imm => Sys2Proof.Machine.execChrLen imm s
  | .chrGetlen => Sys2Proof.Machine.execChrGetlen s
  | .txtEnc => Sys2Proof.Machine.execTxtEnc s
  | .txtDec => Sys2Proof.Machine.execTxtDec s

end Sys2Proof.Machine
end

