-- ==== Sys2Proof/Machine/HostPort.lean ====
section
/-! DEFINITION. The command port: what one host act does (00_scope.md R6, R12; 30_encoding.md R65;
70_reset_and_hazards.md R180 to R184). -/

namespace Sys2Proof.Machine

/-- The block takes a command word: the command it decodes to executes, and a word that no row of the opcode map
selects raises `ILLEGAL` with no state change (R65, R153). -/
def runWord (w : Word) (s : State) : Result :=
  match decode w with
  | .ok i => exec i s
  | .error _ => raiseStatus .illegal s

/-- The block can take a command: reset is released (R181, R182) and no response is outstanding (R184). -/
def State.ready (s : State) : Bool := !s.inReset && s.outstanding.isNone

/-- The host issues a command word: none while reset is asserted (R181), none before the previous response (R184);
either is a host act the spec gives no step (U7). -/
def issueCommand (w : Word) (s : State) : Result :=
  if s.inReset then .fault .commandDuringReset
  else if s.outstanding.isSome then .fault .commandBeforeResponse
  else runWord w s

/-- What one act of the host does. -/
def hostAct (e : HostEvent) (s : State) : Result :=
  match e with
  | .command w => issueCommand w s
  | .receive => receiveResponse s
  | .assertReset => .next (resetBlock s)
  | .releaseReset => .next (s.setInReset false)

/-- The next act of the host's script; with none left the block does nothing, because nothing in it advances on its
own (R27; assumption log 1). -/
def nextAct (s : State) : Result :=
  match s.script with
  | [] => .next s
  | e :: rest => hostAct e (s.setScript rest)

/-- The host's acts for a list of command words: it issues each and receives its response (R6, R12, R184). -/
def transactions : List Word → List HostEvent
  | [] => []
  | w :: rest => .command w :: .receive :: transactions rest

/-- The state in which the very next act of the host is to issue `w` and the block can take it: an outstanding
response is received, reset is released (assumption log 8). -/
def withNextCommand (w : Word) (s : State) : State :=
  ((deliver s).setInReset false).setScript (.command w :: s.script)

end Sys2Proof.Machine
end

