-- ==== Sys2Proof/Machine/Step.lean ====
section
/-! DEFINITION. One step of the machine: the host's next act and the block's answer to it (00_scope.md R6, R12). -/

namespace Sys2Proof.Machine

/-- One step: the next act of the host. A command is consumed, executed and answered in this one step (R6, R45). -/
def step (s : State) : Host.Outcome State Fault Refusal := nextAct s

/-- `s` with the command word in the low `nbits` bits of `w` as the host's very next command, ready to be taken. -/
def State.withFetchWord (s : State) (nbits w : Nat) : State := withNextCommand (tableWord nbits w) s

end Sys2Proof.Machine
end

