-- ==== Sys2Proof/WellFormed.lean ====
section
/-! DEFINITION. The checks on commands and assembly lines. Every `Instr` has an encoding, because its operands are
bytes by type: what can be ill formed is an assembly line (30_encoding.md R67, R68), and an operand can be out of
the range its command accepts (60_exceptions.md R154), which is no decode failure (R65). -/

namespace Sys2Proof

/-- An operand or a character code is a number from 0 to 255 (R67). -/
def operandFits (n : Nat) : Bool := n < 256

/-- R67 and R68: the line has as many operands as its format, each from 0 to 255, and a load fits its buffer. An empty
operand list of `crc.seq` or `crc.of` and an empty text are allowed: DESIGN CHOICE, assumption log 10. -/
def AsmLine.wellFormed : AsmLine → Bool
  | .plain op operands => operands.length == op.format.arity && operands.all operandFits
  | .crcSeq bytes => bytes.all operandFits
  | .crcStr text => text.all operandFits
  | .crcOf bytes => bytes.all operandFits
  | .binLoad bytes => bytes.length ≤ Config.nBin && bytes.all operandFits
  | .binLoads text => text.length ≤ Config.nBin && text.all operandFits
  | .chrLoad text => text.length ≤ Config.nChr && text.all operandFits
  | .binClear => true

/-- The command's index or length operand is within its buffer: exactly the commands outside this check raise
`RANGE` (R154). -/
def Instr.inRange : Instr → Bool
  | .crcInit => true
  | .crcByte _ => true
  | .crcRes => true
  | .binWr idx _ => idx.toNat < Config.nBin
  | .binRd idx => idx.toNat < Config.nBin
  | .binLen imm => imm.toNat ≤ Config.nBin
  | .binGetlen => true
  | .chrWr idx _ => idx.toNat < Config.nChr
  | .chrRd idx => idx.toNat < Config.nChr
  | .chrLen imm => imm.toNat ≤ Config.nChr
  | .chrGetlen => true
  | .txtEnc => true
  | .txtDec => true

end Sys2Proof
end

