-- ==== Sys2Proof/Machine/Assembler.lean ====
section
/-! DEFINITION. The command assembler: the expansion of a line to commands (30_encoding.md R68), its words, and the
reading of a line's text (R67). It has no part in what the block does (decision D27). Text is a list of character
codes; what R67 does not fix about text is assumption log 10. -/

namespace Sys2Proof.Machine

/-! ### Expansion -/

/-- A number that `operandFits` as the byte of a command. -/
def operandByte (n : Nat) : Byte := BitVec.ofNat 8 n

/-- The command of a plain line: its operands in the fields of its format (R61, R67); none for a wrong number. -/
def plainCommand (op : Opcode) (operands : List Nat) : List Instr :=
  match op.format, operands with
  | .z, [] => [op.withOperands 0#8 0#8]
  | .b, [imm] => [op.withOperands 0#8 (operandByte imm)]
  | .i, [idx] => [op.withOperands (operandByte idx) 0#8]
  | .ib, [idx, imm] => [op.withOperands (operandByte idx) (operandByte imm)]
  | _, _ => []

/-- `crc.seq` (R68). -/
def expandSeq (bytes : List Nat) : List Instr := bytes.map (fun b => .crcByte (operandByte b))

/-- `wr 0, b0 … wr k, bk` for a write command `wr` (R68). -/
def expandWrites (wr : Byte → Byte → Instr) (start : Nat) : List Nat → List Instr
  | [] => []
  | b :: rest => wr (operandByte start) (operandByte b) :: expandWrites wr (start + 1) rest

/-- The expansion of a line, in order (R68). -/
def expandLine : AsmLine → List Instr
  | .plain op operands => plainCommand op operands
  | .crcSeq bytes => expandSeq bytes
  | .crcStr text => expandSeq text
  | .crcOf bytes => .crcInit :: expandSeq bytes ++ [.crcRes]
  | .binLoad bytes => expandWrites .binWr 0 bytes ++ [.binLen (operandByte bytes.length)]
  | .binLoads text => expandWrites .binWr 0 text ++ [.binLen (operandByte text.length)]
  | .chrLoad text => expandWrites .chrWr 0 text ++ [.chrLen (operandByte text.length)]
  | .binClear => [.binLen 0#8]

/-- The command words of a line; a line that is not well formed is refused (R67). -/
def assembleLine (line : AsmLine) : Option (List Word) :=
  if line.wellFormed then some ((expandLine line).map encode) else none

/-! ### Reading a line -/

/-- The mnemonic of an opcode (R64, lower case by R67). -/
def opcodeName : Opcode → String
  | .crcInit => "crc.init"
  | .crcByte => "crc.byte"
  | .crcRes => "crc.res"
  | .binWr => "bin.wr"
  | .binRd => "bin.rd"
  | .binLen => "bin.len"
  | .binGetlen => "bin.getlen"
  | .chrWr => "chr.wr"
  | .chrRd => "chr.rd"
  | .chrLen => "chr.len"
  | .chrGetlen => "chr.getlen"
  | .txtEnc => "txt.enc"
  | .txtDec => "txt.dec"

/-- The character codes of a text. -/
def codes (text : String) : List Nat := text.toList.map Char.toNat

def isBlank (c : Nat) : Bool := c == 32 || c == 9

/-- A character of a mnemonic: a lower-case letter or the full stop. -/
def isNameChar (c : Nat) : Bool := (97 ≤ c && c ≤ 122) || c == 46

def isDecDigit (c : Nat) : Bool := 48 ≤ c && c ≤ 57

def isHexDigit (c : Nat) : Bool := isDecDigit c || (65 ≤ c && c ≤ 70) || (97 ≤ c && c ≤ 102)

/-- The value of a decimal or hexadecimal digit. -/
def digitValue (c : Nat) : Nat := if c ≤ 57 then c - 48 else if c ≤ 70 then c - 55 else c - 87

/-- A number in a base, at least one digit, and what follows it. -/
def readNumber (base : Nat) (isDigit : Nat → Bool) (cs : List Nat) : Option (Nat × List Nat) :=
  match cs.takeWhile isDigit with
  | [] => none
  | ds => some (ds.foldl (fun n d => base * n + digitValue d) 0, cs.dropWhile isDigit)

/-- One operand (R67): a character literal `'c'`, a `0x` hexadecimal number or a decimal number. DESIGN CHOICE: any
ASCII character stands between the quotes, a `;` too, which starts no comment there (assumption log 10). -/
def readOperand : List Nat → Option (Nat × List Nat)
  | 39 :: c :: 39 :: rest => if c < 128 then some (c, rest) else none
  | 48 :: 120 :: rest => readNumber 16 isHexDigit rest
  | cs => readNumber 10 isDecDigit cs

/-- Only blanks or a comment are left; a `;` starts a comment (R67), outside literals and strings (assumption log 10). -/
def endOfLine (cs : List Nat) : Bool :=
  match cs.dropWhile isBlank with
  | [] => true
  | c :: _ => c == 59

/-- One or more operands with commas between them (R67), at most `fuel` of them. -/
def readOperands : Nat → List Nat → Option (List Nat)
  | 0, _ => none
  | fuel + 1, cs =>
    match readOperand (cs.dropWhile isBlank) with
    | none => none
    | some (n, rest) =>
      match rest.dropWhile isBlank with
      | 44 :: more => (readOperands fuel more).map (n :: ·)
      | rest => if endOfLine rest then some [n] else none

/-- The operands of a line, possibly none. -/
def readOperandList (cs : List Nat) : Option (List Nat) :=
  if endOfLine cs then some [] else readOperands cs.length cs

/-- The characters of a string up to its closing quote, `\xHH` an arbitrary byte (R68), and what follows it. DESIGN
CHOICE: a `;` before the closing quote is a character of the string and starts no comment (assumption log 10). -/
def readString : List Nat → Option (List Nat × List Nat)
  | [] => none
  | 34 :: rest => some ([], rest)
  | 92 :: 120 :: h :: l :: rest =>
    if isHexDigit h && isHexDigit l then
      (readString rest).map (fun t => ((16 * digitValue h + digitValue l) :: t.1, t.2))
    else none
  | c :: rest => if c == 92 || 128 ≤ c then none else (readString rest).map (fun t => (c :: t.1, t.2))

/-- The one string operand of a line. -/
def readText (cs : List Nat) : Option (List Nat) :=
  match cs.dropWhile isBlank with
  | 34 :: rest =>
    match readString rest with
    | some (text, rest) => if endOfLine rest then some text else none
    | none => none
  | _ => none

/-- The opcode of a mnemonic. -/
def opcodeNamed (name : List Nat) : Option Opcode :=
  (opcodeTable.find? (fun row => codes (opcodeName row.opcode) == name)).map OpcodeRow.opcode

/-- A line with the given mnemonic and the text after it (R67, R68). -/
def readNamed (name rest : List Nat) : Option AsmLine :=
  match opcodeNamed name with
  | some op => (readOperandList rest).map (.plain op)
  | none =>
    if name == codes "crc.seq" then (readOperandList rest).map .crcSeq
    else if name == codes "crc.str" then (readText rest).map .crcStr
    else if name == codes "crc.of" then (readOperandList rest).map .crcOf
    else if name == codes "bin.load" then (readOperandList rest).map .binLoad
    else if name == codes "bin.loads" then (readText rest).map .binLoads
    else if name == codes "chr.load" then (readText rest).map .chrLoad
    else if name == codes "bin.clear" && endOfLine rest then some .binClear
    else none

/-- A mnemonic ends at a blank, a comment or the end of the line. -/
def nameEnds : List Nat → Bool
  | [] => true
  | c :: _ => isBlank c || c == 59

/-- Read one source line: no command for a blank or comment line; `none` for text that is no line of R67 or R68. -/
def readLine (cs : List Nat) : Option (List AsmLine) :=
  if endOfLine cs then some []
  else if nameEnds ((cs.dropWhile isBlank).dropWhile isNameChar) then
    (readNamed ((cs.dropWhile isBlank).takeWhile isNameChar) ((cs.dropWhile isBlank).dropWhile isNameChar)).map
      (fun line => [line])
  else none

/-- The command words of one source line (R67, R68). -/
def assembleText (text : String) : Option (List Word) :=
  match readLine (codes text) with
  | some lines => (lines.mapM assembleLine).map List.flatten
  | none => none

end Sys2Proof.Machine
end

