-- ==== Sys2Proof/Safety.lean ====
section
/-! DEFINITION. What counts as a safe run, and the terms the statements use: the invariant of the state (10_state.md
R28), reachability from reset, and which part of the state two states share. -/

namespace Sys2Proof.Machine

/-- The invariant of R28, with both buffers in canonical form and within their spaces (R40, R41). -/
structure State.Inv (s : State) : Prop where
  binLen_le : s.binLen.toNat ≤ 45
  chrLen_le : s.chrLen.toNat ≤ 61
  bin_wf : s.bin.wf 45
  chr_wf : s.chr.wf 61

/-- The states a run reaches (R12): the reset state of an implementation with any `ACCEPT_SPACE` and any host script,
and whatever a step makes of a reached state. -/
inductive Reachable : State → Prop where
  | reset (acceptSpace : Bool) (script : List HostEvent) : Reachable ((State.resetOf acceptSpace).setScript script)
  | step {s t : State} : Reachable s → Machine.step s = .next t → Reachable t

/-- `k` steps, stopping at the first that is stuck: `Host.Core.run` of the machine, on its own types. -/
def runSteps : Nat → State → Result
  | 0, s => .next s
  | k + 1, s =>
    match step s with
    | .next t => runSteps k t
    | .fault r => .fault r
    | .refused r => .refused r

/-- A step that is not stuck. A host that keeps its duties (R181, R184) sees no other (R186). -/
def SafeStep (s : State) : Prop := ∃ t, step s = .next t

/-- The host's next act keeps its duties: no command while reset is asserted (R181) or before the previous response
(R184), no wait for a response that will not come (U8). -/
def hostKeepsDuties (s : State) : Bool :=
  match s.script with
  | .command _ :: _ => s.ready
  | .receive :: _ => s.outstanding.isSome
  | .assertReset :: _ => true
  | .releaseReset :: _ => true
  | [] => true

/-- Every entry of the binary buffer, with its written-mark, is the same in both states. -/
def SameBin (s t : State) : Prop := ∀ i, t.bin.entry i = s.bin.entry i

/-- Every entry of the text buffer, with its written-mark, is the same in both states. -/
def SameChr (s t : State) : Prop := ∀ i, t.chr.entry i = s.chr.entry i

/-- Everything but the block's own registers and buffers, the response port and the draws is the same: the reset
input, the parameter `ACCEPT_SPACE`, the host's script and what it has received. -/
def SameHost (s t : State) : Prop :=
  t.inReset = s.inReset ∧ t.acceptSpace = s.acceptSpace ∧ t.script = s.script ∧ t.received = s.received

/-- All the architectural state of R20 is the same: `ACC`, both lengths, every entry and every written-mark. -/
def SameBlock (s t : State) : Prop :=
  t.acc = s.acc ∧ t.binLen = s.binLen ∧ t.chrLen = s.chrLen ∧ SameBin s t ∧ SameChr s t

/-- The frame of a command that writes no state: only its response is new. -/
def ChangesNothing (s t : State) : Prop := SameBlock s t ∧ SameHost s t

/-- The frame of a command that writes `ACC`: nothing else but the response changes, and no draw is answered. -/
def ChangesOnlyAcc (s t : State) : Prop :=
  t.binLen = s.binLen ∧ t.chrLen = s.chrLen ∧ SameBin s t ∧ SameChr s t ∧ SameHost s t ∧ t.draws = s.draws

/-- The frame of a command that writes entry `i` of the binary buffer: every other entry, and everything else but
the response, is unchanged, and no draw is answered. -/
def ChangesOnlyBinEntry (i : Nat) (s t : State) : Prop :=
  t.acc = s.acc ∧ t.binLen = s.binLen ∧ t.chrLen = s.chrLen ∧ (∀ j, j ≠ i → t.bin.entry j = s.bin.entry j) ∧
    SameChr s t ∧ SameHost s t ∧ t.draws = s.draws

/-- The frame of a command that writes entry `i` of the text buffer. -/
def ChangesOnlyChrEntry (i : Nat) (s t : State) : Prop :=
  t.acc = s.acc ∧ t.binLen = s.binLen ∧ t.chrLen = s.chrLen ∧ SameBin s t ∧
    (∀ j, j ≠ i → t.chr.entry j = s.chr.entry j) ∧ SameHost s t ∧ t.draws = s.draws

/-- The frame of a command that writes `BIN_LEN`. -/
def ChangesOnlyBinLen (s t : State) : Prop :=
  t.acc = s.acc ∧ t.chrLen = s.chrLen ∧ SameBin s t ∧ SameChr s t ∧ SameHost s t ∧ t.draws = s.draws

/-- The frame of a command that writes `CHR_LEN`. -/
def ChangesOnlyChrLen (s t : State) : Prop :=
  t.acc = s.acc ∧ t.binLen = s.binLen ∧ SameBin s t ∧ SameChr s t ∧ SameHost s t ∧ t.draws = s.draws

/-- The command ends by a status other than `OK` and writes no state (R151), answering draws up to `d`. -/
def FailsWith (st : Status) (d : Nat) (s : State) (o : Result) : Prop :=
  ∃ t, o = .next t ∧ t.outstanding = some ⟨st, 0#32⟩ ∧ ChangesNothing s t ∧ t.draws = d

/-- Every word with this `op` and a nonzero field that its format does not use raises `ILLEGAL` in every state, with
no state change (R65(b)); `unused` says which words those are. -/
def IllegalWhere (op : Byte) (unused : Word → Prop) : Prop :=
  ∀ w s, opField w = op → unused w → FailsWith .illegal s.draws s (runWord w s)

/-- The word of a command of this format has a nonzero field that the format does not use (R61). -/
def UnusedFieldSet (f : Format) (w : Word) : Prop :=
  match f with
  | .z => idxField w ≠ 0#8 ∨ rsvField w ≠ 0#8 ∨ immField w ≠ 0#8
  | .b => idxField w ≠ 0#8 ∨ rsvField w ≠ 0#8
  | .i => rsvField w ≠ 0#8 ∨ immField w ≠ 0#8
  | .ib => rsvField w ≠ 0#8

/-- What a read of entry `i` gives when the entries `0 .. i-1` are read before it, each once, from `d` answered
draws: its value, or a draw of its own when it is unwritten (R26). -/
def readValue (m : Memory) (d i : Nat) : Byte := (m.entry i).getD (Config.draw (d + m.unwrittenBelow i))

end Sys2Proof.Machine
end

