-- ==== Sys2Proof/Certificates/Slice0/Obligations.lean ====
section
/-! DEFINITION. The statements for the provers: what the numbered rules of spec/ say the block does. A statement that
speaks of `Config.draw` or of the field `acceptSpace` holds for every value of them. A clause on `draws`, `FailsWith`
and the frames included, counts draws as the model does (assumption log 4): the spec has no such count. -/

open Sys2Proof Sys2Proof.Machine

/-! ### Encoding (30_encoding.md) -/

/-- Every command is what the decoder reads from its word, with every operand at every value (R61, R64). -/
def Obligations.DecodeInvertsEncode : Prop := ∀ i : Instr, decode (encode i) = .ok i

/-- A word that decodes is the word of the command it decodes to: no command has two words (R61, R64). -/
def Obligations.EncodeInvertsDecode : Prop := ∀ (w : Word) (i : Instr), decode w = .ok i → encode i = w

/-- R65: exactly one row selects a word and its command executes, or none does and the word raises `ILLEGAL` with no
state change; the second case is a reserved `op` or a nonzero field that the format does not use. -/
def Obligations.EveryWordDecodesOneWay : Prop :=
  ∀ w : Word,
    ((∃ row ∈ opcodeTable, row.selects w = true ∧ (∀ row' ∈ opcodeTable, row'.selects w = true → row' = row) ∧
        ∀ s, runWord w s = exec (row.opcode.withOperands (idxField w) (immField w)) s) ∨
      ((∀ row ∈ opcodeTable, row.selects w = false) ∧ ∀ s, FailsWith .illegal s.draws s (runWord w s))) ∧
    ((∀ row ∈ opcodeTable, row.selects w = false) ↔
      isReservedOp (opField w) = true ∨ ∃ op : Opcode, opField w = op.code ∧ UnusedFieldSet op.format w)

/-- R62: the operands of a decoded command are the word's fields, untransformed, and no value of an operand is a
decode failure: every command with every operand has a word. -/
def Obligations.OperandsAreTheFieldsUntransformed : Prop :=
  (∀ w i, decode w = .ok i → i.idxOperand = idxField w ∧ i.immOperand = immField w ∧ rsvField w = 0#8) ∧
  ∀ i : Instr, ∃ w, decode w = .ok i

/-- R66: the 13 opcodes of R64 are all there are; each of the other 243 `op` values raises `ILLEGAL` whatever the
other fields, the all-zero word among them. -/
def Obligations.ReservedOpcodesAreIllegal : Prop :=
  (∀ w s, opField w ∉ [0x10#8, 0x11#8, 0x12#8, 0x20#8, 0x21#8, 0x22#8, 0x23#8, 0x28#8, 0x29#8, 0x2A#8, 0x2B#8,
      0x30#8, 0x31#8] → FailsWith .illegal s.draws s (runWord w s)) ∧
  ((List.range 256).filter (fun n => isReservedOp (BitVec.ofNat 8 n))).length = 243 ∧
  ∀ s, FailsWith .illegal s.draws s (runWord 0x00000000#32 s)

/-- R69: the worked encodings, both directions. -/
def Obligations.WorkedEncodingsDecode : Prop :=
  (decode 0x10000000#32 = .ok .crcInit ∧ encode .crcInit = 0x10000000#32) ∧
  (decode 0x11000031#32 = .ok (.crcByte 0x31#8) ∧ encode (.crcByte 0x31#8) = 0x11000031#32) ∧
  (decode 0x202C00FF#32 = .ok (.binWr 44#8 0xFF#8) ∧ encode (.binWr 44#8 0xFF#8) = 0x202C00FF#32) ∧
  (decode 0x293C0000#32 = .ok (.chrRd 60#8) ∧ encode (.chrRd 60#8) = 0x293C0000#32) ∧
  (decode 0x2200002D#32 = .ok (.binLen 45#8) ∧ encode (.binLen 45#8) = 0x2200002D#32) ∧
  (decode 0x31000000#32 = .ok .txtDec ∧ encode .txtDec = 0x31000000#32) ∧
  (∀ s, FailsWith .illegal s.draws s (runWord 0x10000001#32 s)) ∧
  (∀ s, FailsWith .illegal s.draws s (runWord 0x11000100#32 s))

/-! ### The CRC unit (40_crc32.md) -/

/-- R82: crc.init, its word, its `ILLEGAL` forms, its effect in every state and its frame. -/
def Obligations.CrcInitResetsTheAccumulator : Prop :=
  decode 0x10000000#32 = .ok .crcInit ∧ IllegalWhere 0x10#8 (UnusedFieldSet .z) ∧
  ∀ s, ∃ t, exec .crcInit s = .next t ∧ t.outstanding = some ⟨.ok, 0#32⟩ ∧ t.acc = 0xFFFFFFFF#32 ∧
    ChangesOnlyAcc s t

/-- R83: crc.byte, its words, its `ILLEGAL` forms, its effect and frame for every byte, and its corner cases: a zero
byte changes every `ACC` but zero, which it leaves zero. -/
def Obligations.CrcByteFoldsOneByte : Prop :=
  (∀ imm : Byte, decode (0x11000000#32 ||| imm.setWidth 32) = .ok (.crcByte imm)) ∧
  IllegalWhere 0x11#8 (UnusedFieldSet .b) ∧
  (∀ imm s, ∃ t, exec (.crcByte imm) s = .next t ∧ t.outstanding = some ⟨.ok, 0#32⟩ ∧
    t.acc = crcStep8 s.acc imm ∧ ChangesOnlyAcc s t) ∧
  (∀ a, crcStep8 a 0x00#8 = a → a = 0#32) ∧ crcStep8 0#32 0x00#8 = 0#32 ∧
  crcStep8 0xFFFFFFFF#32 0x31#8 = 0x7C231048#32

/-- R84: crc.res, its word, its `ILLEGAL` forms, the complement it answers, and that it writes nothing: a second one
answers the same, after crc.init or reset it answers 0, and after the bytes of "123456789" `0xCBF43926`. -/
def Obligations.CrcResAnswersTheComplement : Prop :=
  decode 0x12000000#32 = .ok .crcRes ∧ IllegalWhere 0x12#8 (UnusedFieldSet .z) ∧
  (∀ s, ∃ t, exec .crcRes s = .next t ∧ t.outstanding = some ⟨.ok, s.acc ^^^ 0xFFFFFFFF#32⟩ ∧ ChangesNothing s t ∧
    t.draws = s.draws ∧ exec .crcRes t = .next t) ∧
  (∀ s, s.acc = 0xFFFFFFFF#32 → ∃ t, exec .crcRes s = .next t ∧ t.outstanding = some ⟨.ok, 0#32⟩) ∧
  (∀ s, s.acc = [0x31#8, 0x32#8, 0x33#8, 0x34#8, 0x35#8, 0x36#8, 0x37#8, 0x38#8, 0x39#8].foldl crcStep8 0xFFFFFFFF#32 →
    ∃ t, exec .crcRes s = .next t ∧ t.outstanding = some ⟨.ok, 0xCBF43926#32⟩)

/-- R80 and R81: `crc_step8` is the loop of R80 and equals the table-driven form it permits, and `Crc32` folds it from
`0xFFFFFFFF` and complements. -/
def Obligations.CrcFunctionIsTheLoopAndTheTable : Prop :=
  (∀ a b, crcStep8 a b = (List.range 8).foldl
    (fun x _ => if x.getLsbD 0 then (x >>> 1) ^^^ 0xEDB88320#32 else x >>> 1) (a ^^^ b.setWidth 32)) ∧
  (∀ (a : Word) (b : Byte), crcStep8 a b =
    (a >>> 8) ^^^ ((List.range 256).map (fun i => crcStep8 0#32 (BitVec.ofNat 8 i))).getD
      ((a ^^^ b.setWidth 32) &&& 0xFF#32).toNat 0#32) ∧
  (∀ bytes, crc32 bytes = bytes.foldl crcStep8 0xFFFFFFFF#32 ^^^ 0xFFFFFFFF#32) ∧ crc32 [] = 0x00000000#32

/-- R86: `crc_step8` is linear for XOR, and maps zero to zero. -/
def Obligations.CrcStepIsLinearForXor : Prop :=
  (∀ a a' b b', crcStep8 (a ^^^ a') (b ^^^ b') = crcStep8 a b ^^^ crcStep8 a' b') ∧ crcStep8 0#32 0#8 = 0#32

/-- R85: for every byte sequence, the host's transactions crc.init, crc.byte for each byte, crc.res end by the response
`Crc32` of the sequence, from every state in which the block takes commands; from reset without the crc.init too. -/
def Obligations.CrcOfEveryByteSequence : Prop :=
  (∀ (bytes : List Byte) (s : State) (rest : List HostEvent), s.ready = true →
    s.script = transactions (0x10000000#32 :: bytes.map (fun b => 0x11000000#32 ||| b.setWidth 32)
      ++ [0x12000000#32]) ++ rest →
    ∃ t : State, runSteps (2 * (bytes.length + 2)) s = .next t ∧ t.script = rest ∧
      t.received.getLast? = some ⟨.ok, crc32 bytes⟩) ∧
  (∀ (bytes : List Byte) (accepts : Bool) (rest : List HostEvent),
    ∃ t : State, runSteps (2 * (bytes.length + 1)) ((State.resetOf accepts).setScript
        (transactions (bytes.map (fun b => 0x11000000#32 ||| b.setWidth 32) ++ [0x12000000#32]) ++ rest)) = .next t ∧
      t.script = rest ∧ t.received.getLast? = some ⟨.ok, crc32 bytes⟩)

/-- R29: no command but crc.byte and crc.res depends on `ACC`: with any other value in it the command answers the same
and leaves the same lengths, entries and draws. -/
def Obligations.OnlyCrcCommandsReadTheAccumulator : Prop :=
  ∀ (i : Instr) (s t : State) (v : Word), i ≠ .crcRes → (∀ imm, i ≠ .crcByte imm) → exec i s = .next t →
    ∃ t', exec i (s.setAcc v) = .next t' ∧ t'.outstanding = t.outstanding ∧ t'.binLen = t.binLen ∧
      t'.chrLen = t.chrLen ∧ SameBin t t' ∧ SameChr t t' ∧ t'.draws = t.draws

/-! ### Buffer access (41_buffers.md) -/

/-- R100: bin.wr, its words, its `ILLEGAL` forms, the entry it writes and its frame, and `RANGE` from 45 on. -/
def Obligations.BinWrWritesOneEntry : Prop :=
  (∀ idx imm : Byte, decode (0x20000000#32 ||| idx.setWidth 32 <<< 16 ||| imm.setWidth 32) = .ok (.binWr idx imm)) ∧
  IllegalWhere 0x20#8 (UnusedFieldSet .ib) ∧
  (∀ idx imm s, idx.toNat < 45 → ∃ t, exec (.binWr idx imm) s = .next t ∧ t.outstanding = some ⟨.ok, 0#32⟩ ∧
    t.bin.entry idx.toNat = some imm ∧ ChangesOnlyBinEntry idx.toNat s t) ∧
  (∀ idx imm s, 45 ≤ idx.toNat → FailsWith .range s.draws s (exec (.binWr idx imm) s))

/-- R101: bin.rd, its words, its `ILLEGAL` forms, the value it answers (a draw for an unwritten entry) and its frame,
and `RANGE` from 45 on. -/
def Obligations.BinRdAnswersOneEntry : Prop :=
  (∀ idx : Byte, decode (0x21000000#32 ||| idx.setWidth 32 <<< 16) = .ok (.binRd idx)) ∧
  IllegalWhere 0x21#8 (UnusedFieldSet .i) ∧
  (∀ idx s v, idx.toNat < 45 → s.bin.entry idx.toNat = some v → ∃ t, exec (.binRd idx) s = .next t ∧
    t.outstanding = some ⟨.ok, v.setWidth 32⟩ ∧ ChangesNothing s t ∧ t.draws = s.draws) ∧
  (∀ idx s, idx.toNat < 45 → s.bin.entry idx.toNat = none → ∃ t, exec (.binRd idx) s = .next t ∧
    t.outstanding = some ⟨.ok, (Config.draw s.draws).setWidth 32⟩ ∧ ChangesNothing s t ∧ t.draws = s.draws + 1) ∧
  (∀ idx s, 45 ≤ idx.toNat → FailsWith .range s.draws s (exec (.binRd idx) s))

/-- R102: bin.len, its words, its `ILLEGAL` forms, the length it sets and its frame, and `RANGE` above 45. -/
def Obligations.BinLenSetsThePayloadLength : Prop :=
  (∀ imm : Byte, decode (0x22000000#32 ||| imm.setWidth 32) = .ok (.binLen imm)) ∧
  IllegalWhere 0x22#8 (UnusedFieldSet .b) ∧
  (∀ imm s, imm.toNat ≤ 45 → ∃ t, exec (.binLen imm) s = .next t ∧ t.outstanding = some ⟨.ok, 0#32⟩ ∧
    t.binLen.toNat = imm.toNat ∧ ChangesOnlyBinLen s t) ∧
  (∀ imm s, 45 < imm.toNat → FailsWith .range s.draws s (exec (.binLen imm) s))

/-- R103: bin.getlen, its word, its `ILLEGAL` forms, the length it answers and its frame; after reset it answers 0,
and after a txt.dec the length that txt.dec left. That the count of an unwritten `CHR[0]` comes from the very draw that
the character check saw is the model's choice (assumption log 5). -/
def Obligations.BinGetlenAnswersThePayloadLength : Prop :=
  decode 0x23000000#32 = .ok .binGetlen ∧ IllegalWhere 0x23#8 (UnusedFieldSet .z) ∧
  (∀ s, ∃ t, exec .binGetlen s = .next t ∧ t.outstanding = some ⟨.ok, s.binLen.setWidth 32⟩ ∧ ChangesNothing s t ∧
    t.draws = s.draws) ∧
  (∀ accepts, ∃ t, exec .binGetlen (State.resetOf accepts) = .next t ∧ t.outstanding = some ⟨.ok, 0#32⟩) ∧
  (∀ s t r, exec .txtDec s = .next t → t.outstanding = some r → ∃ u, exec .binGetlen t = .next u ∧
    u.outstanding = some ⟨.ok, (if r.status = .ok then (decChar (readValue s.chr s.draws 0)).setWidth 32
      else s.binLen.setWidth 32)⟩)

/-- R104: chr.wr, its words, its `ILLEGAL` forms, the entry it writes (any byte) and its frame, and `RANGE` from 61 on. -/
def Obligations.ChrWrWritesOneEntry : Prop :=
  (∀ idx imm : Byte, decode (0x28000000#32 ||| idx.setWidth 32 <<< 16 ||| imm.setWidth 32) = .ok (.chrWr idx imm)) ∧
  IllegalWhere 0x28#8 (UnusedFieldSet .ib) ∧
  (∀ idx imm s, idx.toNat < 61 → ∃ t, exec (.chrWr idx imm) s = .next t ∧ t.outstanding = some ⟨.ok, 0#32⟩ ∧
    t.chr.entry idx.toNat = some imm ∧ ChangesOnlyChrEntry idx.toNat s t) ∧
  (∀ idx imm s, 61 ≤ idx.toNat → FailsWith .range s.draws s (exec (.chrWr idx imm) s))

/-- R105: chr.rd, its words, its `ILLEGAL` forms, the value it answers (a draw for an unwritten entry) and its frame,
and `RANGE` from 61 on. -/
def Obligations.ChrRdAnswersOneEntry : Prop :=
  (∀ idx : Byte, decode (0x29000000#32 ||| idx.setWidth 32 <<< 16) = .ok (.chrRd idx)) ∧
  IllegalWhere 0x29#8 (UnusedFieldSet .i) ∧
  (∀ idx s v, idx.toNat < 61 → s.chr.entry idx.toNat = some v → ∃ t, exec (.chrRd idx) s = .next t ∧
    t.outstanding = some ⟨.ok, v.setWidth 32⟩ ∧ ChangesNothing s t ∧ t.draws = s.draws) ∧
  (∀ idx s, idx.toNat < 61 → s.chr.entry idx.toNat = none → ∃ t, exec (.chrRd idx) s = .next t ∧
    t.outstanding = some ⟨.ok, (Config.draw s.draws).setWidth 32⟩ ∧ ChangesNothing s t ∧ t.draws = s.draws + 1) ∧
  (∀ idx s, 61 ≤ idx.toNat → FailsWith .range s.draws s (exec (.chrRd idx) s))

/-- R106: chr.len, its words, its `ILLEGAL` forms, the length it sets and its frame, and `RANGE` above 61; length 0 is
legal here, and a txt.dec then raises `DEC_LENGTH`. -/
def Obligations.ChrLenSetsTheLineLength : Prop :=
  (∀ imm : Byte, decode (0x2A000000#32 ||| imm.setWidth 32) = .ok (.chrLen imm)) ∧
  IllegalWhere 0x2A#8 (UnusedFieldSet .b) ∧
  (∀ imm s, imm.toNat ≤ 61 → ∃ t, exec (.chrLen imm) s = .next t ∧ t.outstanding = some ⟨.ok, 0#32⟩ ∧
    t.chrLen.toNat = imm.toNat ∧ ChangesOnlyChrLen s t ∧
    (imm = 0#8 → FailsWith .decLength t.draws t (exec .txtDec t))) ∧
  (∀ imm s, 61 < imm.toNat → FailsWith .range s.draws s (exec (.chrLen imm) s))

/-- R107: chr.getlen, its word, its `ILLEGAL` forms, the length it answers and its frame; after a txt.enc it answers
the frame length of the payload. -/
def Obligations.ChrGetlenAnswersTheLineLength : Prop :=
  decode 0x2B000000#32 = .ok .chrGetlen ∧ IllegalWhere 0x2B#8 (UnusedFieldSet .z) ∧
  (∀ s, ∃ t, exec .chrGetlen s = .next t ∧ t.outstanding = some ⟨.ok, s.chrLen.setWidth 32⟩ ∧ ChangesNothing s t ∧
    t.draws = s.draws) ∧
  (∀ s t, exec .txtEnc s = .next t → ∃ u, exec .chrGetlen t = .next u ∧
    u.outstanding = some ⟨.ok, BitVec.ofNat 32 (1 + 4 * ((s.binLen.toNat + 2) / 3))⟩)

/-! ### The text frame (42_textframe.md) -/

/-- R120: `enc_char`, and that every character it gives lies in `0x21` to `0x60`, so that it never gives a space. -/
def Obligations.EncodedCharactersArePrintable : Prop :=
  (∀ g : Group, encChar g = if g = 0#6 then 0x60#8 else g.setWidth 8 + 0x20#8) ∧
  (∀ g : Group, 0x21#8 ≤ encChar g ∧ encChar g ≤ 0x60#8) ∧ ∀ g : Group, encChar g ≠ 0x20#8

/-- R121: the valid characters, the inverse map on them and that it inverts `enc_char`; a line with an invalid
character is a decode failure. On a line with unwritten characters, which draw each of them reads as (assumption log 5)
and how many draws the failing txt.dec leaves answered (assumption log 4) are the model's choice. -/
def Obligations.ValidCharactersAndTheirInverse : Prop :=
  (∀ accepts c, validChar accepts c = true ↔
    (0x21 ≤ c.toNat ∧ c.toNat ≤ 0x60) ∨ (c.toNat = 0x20 ∧ accepts = true)) ∧
  (∀ accepts c, validChar accepts c = true → (decChar c).toNat = (c.toNat - 0x20) % 64) ∧
  (∀ g, decChar (encChar g) = g) ∧
  (∀ s j, s.chrLen.toNat ≤ 61 → j < s.chrLen.toNat → validChar s.acceptSpace (readValue s.chr s.draws j) = false →
    FailsWith .decChar (s.draws + s.chr.unwrittenBelow s.chrLen.toNat) s (exec .txtDec s))

/-- R122, R123 and R124: the count characters and the cut of a triple into groups; txt.enc in every state with a legal
`BIN_LEN`: its word and `ILLEGAL` forms, the count character, the four characters of each zero-padded triple, `CHR_LEN`,
and its frame. A payload entry that is unwritten
reads as a draw of its own (`readValue`). -/
def Obligations.TxtEncWritesTheFrame : Prop :=
  decode 0x30000000#32 = .ok .txtEnc ∧ IllegalWhere 0x30#8 (UnusedFieldSet .z) ∧
  (∀ n, 1 ≤ n → n ≤ 45 → encChar (BitVec.ofNat 6 n) = BitVec.ofNat 8 (n + 0x20)) ∧ encChar 0#6 = 0x60#8 ∧
  (∀ (a b c : Byte) (t : BitVec 24), t = a ++ b ++ c →
    t.extractLsb' 18 6 = (a >>> 2).setWidth 6 ∧
    t.extractLsb' 12 6 = ((a &&& 0x03#8) <<< 4 ||| b >>> 4).setWidth 6 ∧
    t.extractLsb' 6 6 = ((b &&& 0x0F#8) <<< 2 ||| c >>> 6).setWidth 6 ∧
    t.extractLsb' 0 6 = (c &&& 0x3F#8).setWidth 6) ∧
  ∀ (s : State) (n : Nat) (p : Nat → Byte), s.binLen.toNat = n → n ≤ 45 →
    (∀ i, p i = if i < n then readValue s.bin s.draws i else 0x00#8) →
    ∃ t, exec .txtEnc s = .next t ∧ t.outstanding = some ⟨.ok, 0#32⟩ ∧
      t.chrLen.toNat = 1 + 4 * ((n + 2) / 3) ∧
      t.chr.entry 0 = some (encChar (BitVec.ofNat 6 n)) ∧
      (∀ k, k < (n + 2) / 3 →
        t.chr.entry (1 + 4 * k) = some (encChar ((p (3 * k) >>> 2).setWidth 6)) ∧
        t.chr.entry (2 + 4 * k) =
          some (encChar (((p (3 * k) &&& 0x03#8) <<< 4 ||| p (3 * k + 1) >>> 4).setWidth 6)) ∧
        t.chr.entry (3 + 4 * k) =
          some (encChar (((p (3 * k + 1) &&& 0x0F#8) <<< 2 ||| p (3 * k + 2) >>> 6).setWidth 6)) ∧
        t.chr.entry (4 + 4 * k) = some (encChar ((p (3 * k + 2) &&& 0x3F#8).setWidth 6))) ∧
      (∀ j, 1 + 4 * ((n + 2) / 3) ≤ j → t.chr.entry j = s.chr.entry j) ∧
      t.acc = s.acc ∧ t.binLen = s.binLen ∧ SameBin s t ∧ SameHost s t ∧
      t.draws = s.draws + s.bin.unwrittenBelow n

/-- R125: txt.dec in every state with a legal `CHR_LEN`: its word and `ILLEGAL` forms, its checks in their order, each
with the status of the first that fails, and on success the payload bytes, `BIN_LEN` and its frame. A character that is
unwritten reads as a draw of its own (`readValue`): that the checks, the count and the decoding share this one draw
(assumption log 5), and that a failing check leaves the whole line's draws answered (assumption log 4), is the model's
choice; on a written line neither has an effect. -/
def Obligations.TxtDecChecksThenWritesThePayload : Prop :=
  decode 0x31000000#32 = .ok .txtDec ∧ IllegalWhere 0x31#8 (UnusedFieldSet .z) ∧
  ∀ (s : State) (m count : Nat) (c : Nat → Byte), s.chrLen.toNat = m → m ≤ 61 →
    (∀ j, c j = readValue s.chr s.draws j) → count = (decChar (c 0)).toNat →
    (m = 0 → FailsWith .decLength s.draws s (exec .txtDec s)) ∧
    (m ≠ 0 → (∃ j < m, validChar s.acceptSpace (c j) = false) →
      FailsWith .decChar (s.draws + s.chr.unwrittenBelow m) s (exec .txtDec s)) ∧
    (m ≠ 0 → (∀ j < m, validChar s.acceptSpace (c j) = true) → 45 < count →
      FailsWith .decCount (s.draws + s.chr.unwrittenBelow m) s (exec .txtDec s)) ∧
    (m ≠ 0 → (∀ j < m, validChar s.acceptSpace (c j) = true) → count ≤ 45 → m ≠ 1 + 4 * ((count + 2) / 3) →
      FailsWith .decLength (s.draws + s.chr.unwrittenBelow m) s (exec .txtDec s)) ∧
    ((∀ j < m, validChar s.acceptSpace (c j) = true) → count ≤ 45 → m = 1 + 4 * ((count + 2) / 3) →
      ∃ t, exec .txtDec s = .next t ∧ t.outstanding = some ⟨.ok, 0#32⟩ ∧ t.binLen.toNat = count ∧
        (∀ k, k < (count + 2) / 3 → ∀ q : BitVec 24,
          q = decChar (c (1 + 4 * k)) ++ decChar (c (2 + 4 * k)) ++ decChar (c (3 + 4 * k)) ++
            decChar (c (4 + 4 * k)) →
          (3 * k < count → t.bin.entry (3 * k) = some (q.extractLsb' 16 8)) ∧
          (3 * k + 1 < count → t.bin.entry (3 * k + 1) = some (q.extractLsb' 8 8)) ∧
          (3 * k + 2 < count → t.bin.entry (3 * k + 2) = some (q.extractLsb' 0 8))) ∧
        (∀ j, count ≤ j → t.bin.entry j = s.bin.entry j) ∧
        t.acc = s.acc ∧ t.chrLen = s.chrLen ∧ SameChr s t ∧ SameHost s t ∧
        t.draws = s.draws + s.chr.unwrittenBelow m)

/-- R126: from any state with a legal `BIN_LEN` and its payload written, txt.enc followed by txt.dec succeeds and
leaves the binary buffer and `BIN_LEN` as they were, for both values of `ACCEPT_SPACE`. -/
def Obligations.EncodeThenDecodeRestoresThePayload : Prop :=
  ∀ s : State, s.binLen.toNat ≤ 45 → (∀ j < s.binLen.toNat, (s.bin.entry j).isSome = true) →
    ∃ t u, exec .txtEnc s = .next t ∧ t.outstanding = some ⟨.ok, 0#32⟩ ∧
      exec .txtDec t = .next u ∧ u.outstanding = some ⟨.ok, 0#32⟩ ∧ u.binLen = s.binLen ∧ SameBin s u

/-- R127: txt.dec is not injective. A line whose count is one more than a multiple of 3 decodes to the same payload
whatever valid characters its last two are, which carry only pad bits; and with `ACCEPT_SPACE` a space in the place of
a backtick, which txt.enc never gives, decodes to the same payload. -/
def Obligations.DecodeIgnoresPadBitsAndTakesSpaces : Prop :=
  (∀ (s t : State) (x y : Byte), s.chrLen.toNat ≤ 61 →
    (∀ j < s.chrLen.toNat, (s.chr.entry j).isSome = true) →
    exec .txtDec s = .next t → t.outstanding = some ⟨.ok, 0#32⟩ → t.binLen.toNat % 3 = 1 →
    validChar s.acceptSpace x = true → validChar s.acceptSpace y = true →
    ∃ t', exec .txtDec (s.setChr ((s.chr.write (s.chrLen.toNat - 2) x).write (s.chrLen.toNat - 1) y)) = .next t' ∧
      t'.outstanding = some ⟨.ok, 0#32⟩ ∧ t'.binLen = t.binLen ∧ SameBin t t') ∧
  (∀ (s t : State) (j : Nat), s.acceptSpace = true → s.chrLen.toNat ≤ 61 → j < s.chrLen.toNat →
    s.chr.entry j = some 0x60#8 → exec .txtDec s = .next t → t.outstanding = some ⟨.ok, 0#32⟩ →
    ∃ t', exec .txtDec (s.setChr (s.chr.write j 0x20#8)) = .next t' ∧ t'.outstanding = some ⟨.ok, 0#32⟩ ∧
      t'.binLen = t.binLen ∧ SameBin t t') ∧
  (∀ s t : State, exec .txtEnc s = .next t → ∀ j < t.chrLen.toNat, t.chr.entry j ≠ some 0x20#8)

/-- R8 and R121: `ACCEPT_SPACE` decides nothing but whether txt.dec takes a space. Whatever the command, an
implementation with the other value answers the same and reaches the same state, unless it is txt.dec on a line that
holds a space. Which draw an unwritten character of the line reads as is the model's choice (assumption log 5). -/
def Obligations.AcceptSpaceOnlyDecidesSpaces : Prop :=
  ∀ (i : Instr) (s t : State) (accepts : Bool),
    (i = .txtDec → ∀ j < s.chrLen.toNat, readValue s.chr s.draws j ≠ 0x20#8) → exec i s = .next t →
    exec i { s with acceptSpace := accepts } = .next { t with acceptSpace := accepts }

/-! ### Statuses (60_exceptions.md) -/

/-- R150: the codes of the statuses, and for whatever word the block is given: the response has one of them, with data
0 for every one but `OK`, and each is raised by the commands and for the causes that R150 lists. That an unwritten
character of the line is one draw for the check and the count alike is the model's choice (assumption log 5). -/
def Obligations.StatusCodesAndTheirCauses : Prop :=
  (Status.ok.code = 0x00#8 ∧ Status.illegal.code = 0x01#8 ∧ Status.range.code = 0x02#8 ∧
    Status.decChar.code = 0x03#8 ∧ Status.decCount.code = 0x04#8 ∧ Status.decLength.code = 0x05#8) ∧
  ∀ (w : Word) (s t : State), runWord w s = .next t → ∃ r, t.outstanding = some r ∧ r.status.code.toNat ≤ 5 ∧
    (r.status ≠ .ok → r.data = 0#32) ∧
    (r.status = .illegal → ∀ row ∈ opcodeTable, row.selects w = false) ∧
    (r.status = .range → ∃ i, decode w = .ok i ∧ i.inRange = false ∧
      i.opcode ∈ [Opcode.binWr, .binRd, .binLen, .chrWr, .chrRd, .chrLen]) ∧
    (r.status = .decChar → decode w = .ok .txtDec ∧
      ∃ j < s.chrLen.toNat, validChar s.acceptSpace (readValue s.chr s.draws j) = false) ∧
    (r.status = .decCount → decode w = .ok .txtDec ∧ 45 < (decChar (readValue s.chr s.draws 0)).toNat) ∧
    (r.status = .decLength → decode w = .ok .txtDec ∧ (s.chrLen = 0#6 ∨
      s.chrLen.toNat ≠ 1 + 4 * (((decChar (readValue s.chr s.draws 0)).toNat + 2) / 3)))

/-- R151: a command that ends with a status other than `OK` writes no state, and its data is 0. -/
def Obligations.FailingCommandsWriteNothing : Prop :=
  ∀ (w : Word) (s t : State) (r : Response), runWord w s = .next t → t.outstanding = some r → r.status ≠ .ok →
    r.data = 0#32 ∧ ChangesNothing s t

/-- R152: every command word gets one status, the first cause in this order: `ILLEGAL`, then `RANGE`, then for txt.dec
`DEC_LENGTH` for an empty line, `DEC_CHAR`, `DEC_COUNT`, `DEC_LENGTH` for a length mismatch; and `OK` without a cause.
That an unwritten `CHR[0]` is one draw for the character check and the count check alike is the model's choice
(assumption log 5). -/
def Obligations.OneStatusByPriority : Prop :=
  ∀ (w : Word) (s : State) (m count : Nat) (c : Nat → Byte), s.binLen.toNat ≤ 45 → s.chrLen.toNat = m → m ≤ 61 →
    (∀ j, c j = readValue s.chr s.draws j) → count = (decChar (c 0)).toNat →
    ∃ t st d, runWord w s = .next t ∧ t.outstanding = some ⟨st, d⟩ ∧
      ((∀ row ∈ opcodeTable, row.selects w = false) → st = .illegal) ∧
      (∀ i, decode w = .ok i → i.inRange = false → st = .range) ∧
      (∀ i, decode w = .ok i → i.inRange = true → i ≠ .txtDec → st = .ok) ∧
      (decode w = .ok .txtDec → st =
        if m = 0 then .decLength
        else if ∃ j < m, validChar s.acceptSpace (c j) = false then .decChar
        else if 45 < count then .decCount
        else if m ≠ 1 + 4 * ((count + 2) / 3) then .decLength
        else .ok)

/-- R153: `ILLEGAL` is raised exactly for the words that no row of the opcode map selects, in any state, and it changes
nothing; they cover every reserved `op` and every defined one with a nonzero unused field. -/
def Obligations.IllegalExactlyForUnselectedWords : Prop :=
  ∀ (w : Word) (s : State),
    ((∃ t d, runWord w s = .next t ∧ t.outstanding = some ⟨.illegal, d⟩) ↔
      ∀ row ∈ opcodeTable, row.selects w = false) ∧
    ((∀ row ∈ opcodeTable, row.selects w = false) → FailsWith .illegal s.draws s (runWord w s)) ∧
    (isReservedOp (opField w) = true ∨ (∃ op : Opcode, opField w = op.code ∧ UnusedFieldSet op.format w) →
      ∀ row ∈ opcodeTable, row.selects w = false)

/-- R154: `RANGE` is raised in exactly these cases. -/
def Obligations.RangeExactlyOutsideTheBuffers : Prop :=
  ∀ (i : Instr) (s : State),
    (∃ t d, exec i s = .next t ∧ t.outstanding = some ⟨.range, d⟩) ↔
      (∃ idx imm, i = .binWr idx imm ∧ 45 ≤ idx.toNat) ∨ (∃ idx, i = .binRd idx ∧ 45 ≤ idx.toNat) ∨
      (∃ idx imm, i = .chrWr idx imm ∧ 61 ≤ idx.toNat) ∨ (∃ idx, i = .chrRd idx ∧ 61 ≤ idx.toNat) ∨
      (∃ imm, i = .binLen imm ∧ 45 < imm.toNat) ∨ (∃ imm, i = .chrLen imm ∧ 61 < imm.toNat)

/-- R63: a command that reaches a next state leaves one response; its data is 0 when the status is not `OK` and for
every command but the five that read, and theirs is a CRC value, or a byte or a length zero-extended. The block keeps
no copy of it: no command depends on the response before it. -/
def Obligations.ResponseDataOfEveryCommand : Prop :=
  (∀ (i : Instr) (s : State) (r : Option Response), exec i (s.setOutstanding r) = exec i s) ∧
  ∀ (i : Instr) (s t : State), exec i s = .next t → ∃ r, t.outstanding = some r ∧
    (r.status ≠ .ok → r.data = 0#32) ∧
    (r.status = .ok →
      match i with
      | .crcRes => r.data = s.acc ^^^ 0xFFFFFFFF#32
      | .binRd idx => r.data = ((s.bin.entry idx.toNat).getD (Config.draw s.draws)).setWidth 32
      | .chrRd idx => r.data = ((s.chr.entry idx.toNat).getD (Config.draw s.draws)).setWidth 32
      | .binGetlen => r.data = s.binLen.setWidth 32
      | .chrGetlen => r.data = s.chrLen.setWidth 32
      | _ => r.data = 0#32)

/-- R155: a failure leaves the block ready for the next command at once, and never makes a later one fail: after a
failing command that answered no draw, every command word does what it would have done without it. -/
def Obligations.NoFailureIsSticky : Prop :=
  ∀ (w w' : Word) (s t : State) (r : Response), runWord w s = .next t → t.outstanding = some r → r.status ≠ .ok →
    t.draws = s.draws → runWord w' t = runWord w' s

/-! ### The whole machine -/

/-- R20: each piece of state is written by the commands of its row and by no other: `ACC` by crc.init and crc.byte, an
entry of `BIN` by the bin.wr of its index and txt.dec, `BIN_LEN` by bin.len and txt.dec, an entry of `CHR` by the chr.wr
of its index and txt.enc, `CHR_LEN` by chr.len and txt.enc. -/
def Obligations.EachStateIsWrittenByItsCommandsOnly : Prop :=
  ∀ (i : Instr) (s t : State), exec i s = .next t →
    (t.acc ≠ s.acc → i = .crcInit ∨ ∃ imm, i = .crcByte imm) ∧
    (∀ j, t.bin.entry j ≠ s.bin.entry j → (∃ idx imm, i = .binWr idx imm ∧ idx.toNat = j) ∨ i = .txtDec) ∧
    (t.binLen ≠ s.binLen → (∃ imm, i = .binLen imm) ∨ i = .txtDec) ∧
    (∀ j, t.chr.entry j ≠ s.chr.entry j → (∃ idx imm, i = .chrWr idx imm ∧ idx.toNat = j) ∨ i = .txtEnc) ∧
    (t.chrLen ≠ s.chrLen → (∃ imm, i = .chrLen imm) ∨ i = .txtEnc) ∧ SameHost s t

/-- R26 and R180: no command clears a written-mark; only asserting reset does. -/
def Obligations.OnlyResetClearsWrittenMarks : Prop :=
  (∀ (w : Word) (s t : State) (j : Nat), runWord w s = .next t →
    ((s.bin.entry j).isSome = true → (t.bin.entry j).isSome = true) ∧
    ((s.chr.entry j).isSome = true → (t.chr.entry j).isSome = true)) ∧
  (∀ (s t : State) (j : Nat), step s = .next t → (∀ rest, s.script ≠ .assertReset :: rest) →
    ((s.bin.entry j).isSome = true → (t.bin.entry j).isSome = true) ∧
    ((s.chr.entry j).isSome = true → (t.chr.entry j).isSome = true))

/-- R26: two reads of the same unwritten entry are two draws, not one. -/
def Obligations.UnwrittenReadsAreSeparateDraws : Prop :=
  (∀ (idx : Byte) (s : State), idx.toNat < 45 → s.bin.entry idx.toNat = none →
    ∃ t u, exec (.binRd idx) s = .next t ∧ exec (.binRd idx) t = .next u ∧
      t.outstanding = some ⟨.ok, (Config.draw s.draws).setWidth 32⟩ ∧
      u.outstanding = some ⟨.ok, (Config.draw (s.draws + 1)).setWidth 32⟩ ∧ u.draws = s.draws + 2) ∧
  (∀ (idx : Byte) (s : State), idx.toNat < 61 → s.chr.entry idx.toNat = none →
    ∃ t u, exec (.chrRd idx) s = .next t ∧ exec (.chrRd idx) t = .next u ∧
      t.outstanding = some ⟨.ok, (Config.draw s.draws).setWidth 32⟩ ∧
      u.outstanding = some ⟨.ok, (Config.draw (s.draws + 1)).setWidth 32⟩ ∧ u.draws = s.draws + 2)

/-- R44: which commands have no side effect and which are idempotent, a repeated read of a written entry answering the
same; crc.byte is not idempotent. -/
def Obligations.ReadsAndWritesAreIdempotent : Prop :=
  (∀ (i : Instr) (s t : State), exec i s = .next t →
    i.opcode ∈ [Opcode.binRd, .chrRd, .binGetlen, .chrGetlen, .crcRes] →
    ChangesNothing s t ∧
    ((∀ idx, i = .binRd idx → idx.toNat < 45 → (s.bin.entry idx.toNat).isSome = true) →
      (∀ idx, i = .chrRd idx → idx.toNat < 61 → (s.chr.entry idx.toNat).isSome = true) → exec i t = .next t)) ∧
  (∀ (i : Instr) (s t : State), exec i s = .next t →
    i.opcode ∈ [Opcode.binWr, .chrWr, .binLen, .chrLen, .crcInit] → exec i t = .next t) ∧
  (∀ s t : State, s.Inv → (∀ j < s.binLen.toNat, (s.bin.entry j).isSome = true) → exec .txtEnc s = .next t →
    exec .txtEnc t = .next t) ∧
  (∀ s t : State, s.Inv → (∀ j < s.chrLen.toNat, (s.chr.entry j).isSome = true) → exec .txtDec s = .next t →
    exec .txtDec t = .next t) ∧
  (∃ s t u imm, exec (.crcByte imm) s = .next t ∧ exec (.crcByte imm) t = .next u ∧ u.acc ≠ t.acc)

/-- R183's three particular pairs, no others: crc.res straight after crc.byte sees the new `ACC`, txt.dec straight after
txt.enc the new `CHR` and `CHR_LEN`, bin.rd straight after txt.dec the decoded bytes. For every command the state after a
transaction is `TransactionsAreSequential`'s. -/
def Obligations.ThreePairsSeeTheCommandBefore : Prop :=
  (∀ (s : State) (imm : Byte), ∃ t u, exec (.crcByte imm) s = .next t ∧ exec .crcRes t = .next u ∧
    u.outstanding = some ⟨.ok, crcStep8 s.acc imm ^^^ 0xFFFFFFFF#32⟩) ∧
  (∀ s : State, s.binLen.toNat ≤ 45 → ∃ t u, exec .txtEnc s = .next t ∧ exec .txtDec t = .next u ∧
    u.outstanding = some ⟨.ok, 0#32⟩ ∧ u.binLen = s.binLen ∧
    ∀ j < s.binLen.toNat, u.bin.entry j = some (readValue s.bin s.draws j)) ∧
  (∀ s t : State, exec .txtDec s = .next t → t.outstanding = some ⟨.ok, 0#32⟩ → ∀ j < t.binLen.toNat,
    ∃ v u, t.bin.entry j = some v ∧ exec (.binRd (BitVec.ofNat 8 j)) t = .next u ∧
      u.outstanding = some ⟨.ok, v.setWidth 32⟩)

/-- A step whose next host act is a command word that decodes is that command at the state without the act: nothing
else happens around it (R6, R12, R45). -/
def Obligations.StepRunsTheDecodedCommand : Prop :=
  ∀ (s : State) (w : Word) (i : Instr) (rest : List HostEvent), s.ready = true → s.script = .command w :: rest →
    decode w = .ok i → step s = exec i (s.setScript rest)

/-- The host's placing of a word runs exactly that word, whatever state it is placed in: the model's own convention
(assumption log 8). -/
def Obligations.PlacedWordRunsNext : Prop :=
  ∀ (s : State) (nbits w : Nat),
    step (s.withFetchWord nbits w) = runWord (tableWord nbits w) ((deliver s).setInReset false) ∧
    ∀ i, decodeTableWord nbits w = some i → step (s.withFetchWord nbits w) = exec i ((deliver s).setInReset false)

/-- R48: in a transaction the host issues a word and receives its response in two steps; the state after it is the one
the command's rule gives, and the response is the newest the host has. -/
def Obligations.TransactionsAreSequential : Prop :=
  ∀ (s t : State) (w : Word) (ws : List Word) (rest : List HostEvent), s.ready = true →
    s.script = transactions (w :: ws) ++ rest → runWord w (s.setScript (transactions ws ++ rest)) = .next t →
    ∃ (r : Response) (u : State), t.outstanding = some r ∧ runSteps 2 s = .next u ∧ u.ready = true ∧
      u.script = transactions ws ++ rest ∧ u.received = s.received ++ [r] ∧ SameBlock t u

/-- R181 and R184: the model has no step for a command while reset is asserted, and none that accepts a second command
while a response is outstanding; a host that does either is stuck by name, and so is one that waits for a response
that will not come (assumption log 2). -/
def Obligations.HostDutiesHaveNoStep : Prop :=
  (∀ (s : State) (w : Word) (rest : List HostEvent), s.script = .command w :: rest → s.inReset = true →
    step s = .fault .commandDuringReset) ∧
  (∀ (s : State) (w : Word) (rest : List HostEvent) (r : Response), s.script = .command w :: rest →
    s.inReset = false → s.outstanding = some r → step s = .fault .commandBeforeResponse) ∧
  (∀ (s : State) (rest : List HostEvent), s.script = .receive :: rest → s.outstanding = none →
    step s = .fault .noResponse)

/-- R180 and R181: the reset state, as `State.resetOf` gives it and as asserting reset gives it from every state, with
an outstanding response lost. That `State.resetOf` is ready, its reset input released (assumption log 8), and that
asserting reset keeps the received responses, `ACCEPT_SPACE` and the script (assumption log 9), is the model's choice. -/
def Obligations.ResetLeavesTheResetState : Prop :=
  (∀ accepts : Bool, (State.resetOf accepts).acc = 0xFFFFFFFF#32 ∧ (State.resetOf accepts).binLen = 0#6 ∧
    (State.resetOf accepts).chrLen = 0#6 ∧ (∀ j, (State.resetOf accepts).bin.entry j = none) ∧
    (∀ j, (State.resetOf accepts).chr.entry j = none) ∧ (State.resetOf accepts).ready = true) ∧
  State.reset = State.resetOf Config.acceptSpace ∧
  (∀ (s : State) (rest : List HostEvent), s.script = .assertReset :: rest →
    ∃ t, step s = .next t ∧ t.acc = 0xFFFFFFFF#32 ∧ t.binLen = 0#6 ∧ t.chrLen = 0#6 ∧
      (∀ j, t.bin.entry j = none) ∧ (∀ j, t.chr.entry j = none) ∧ t.inReset = true ∧ t.outstanding = none ∧
      t.received = s.received ∧ t.acceptSpace = s.acceptSpace ∧ t.script = rest)

/-- R182: after reset is released the block takes a command at once: asserting and releasing reset, from every state,
leaves a state that is ready. That the rest of the script is kept, and that asserting reset while it is asserted does the
same again, is the model's choice (assumption log 9). -/
def Obligations.ReadyAsSoonAsResetIsReleased : Prop :=
  ∀ (s : State) (rest : List HostEvent), s.script = .assertReset :: .releaseReset :: rest →
    ∃ t : State, runSteps 2 s = .next t ∧ t.ready = true ∧ t.script = rest ∧ t.acc = 0xFFFFFFFF#32

/-- R12 and R186: in a state that meets the invariant, every command word the host issues within its duties gets its
response in this step; and no act of a host that keeps its duties is stuck. -/
def Obligations.EveryCommandIsAnswered : Prop :=
  (∀ (s : State) (w : Word) (rest : List HostEvent), s.Inv → s.ready = true → s.script = .command w :: rest →
    ∃ t r, step s = .next t ∧ t.outstanding = some r ∧ t.script = rest) ∧
  (∀ s : State, s.Inv → hostKeepsDuties s = true → SafeStep s)

/-- Every step keeps the invariant: both lengths legal, both buffers canonical and within their spaces (R28, R40). -/
def Obligations.EveryStepKeepsTheLengthsLegal : Prop :=
  ∀ s t : State, s.Inv → step s = .next t → t.Inv

/-- The reset state meets the invariant, whatever `ACCEPT_SPACE` and the host's script. -/
def Obligations.ResetMeetsTheLengthBounds : Prop :=
  State.reset.Inv ∧ ∀ (accepts : Bool) (script : List HostEvent), ((State.resetOf accepts).setScript script).Inv

/-- R28: in every state reachable from reset by any acts of the host, `BIN_LEN <= 45` and `CHR_LEN <= 61`; so no
reachable step is the fault of an entry that does not exist. -/
def Obligations.ReachableLengthsAreLegal : Prop :=
  ∀ s : State, Reachable s → s.binLen.toNat ≤ 45 ∧ s.chrLen.toNat ≤ 61 ∧ step s ≠ .fault .noSuchEntry

/-! ### The assembler (30_encoding.md R67, R68) -/

/-- R67: a plain line assembles exactly when it has the operands of its format, each from 0 to 255, and then to the one
word of its command; `bin.wr 45, 1` assembles, and raises `RANGE` when it is executed. -/
def Obligations.AssemblerChecksItsOperands : Prop :=
  (∀ (op : Opcode) (operands : List Nat), assembleLine (.plain op operands) = none ↔
    ¬ (operands.length = op.format.arity ∧ ∀ n ∈ operands, n < 256)) ∧
  (∀ (op : Opcode) (operands : List Nat) (words : List Word), assembleLine (.plain op operands) = some words →
    ∃ i, words = [encode i] ∧ i.opcode = op ∧
      (op.format = .b → operands = [i.immOperand.toNat]) ∧ (op.format = .i → operands = [i.idxOperand.toNat]) ∧
      (op.format = .ib → operands = [i.idxOperand.toNat, i.immOperand.toNat])) ∧
  assembleText "bin.wr 45, 1" = some [0x202D0001#32] ∧
  ∀ s, FailsWith .range s.draws s (runWord 0x202D0001#32 s)

/-- R68: the words of the seven pseudo-instructions, for every list of bytes that fits. That `crc.seq` and `crc.of` take
an empty operand list, and `crc.str`, `bin.loads` and `chr.load` an empty text, is the model's choice (assumption log
10): R68 gives the empty `bin.load` alone. -/
def Obligations.PseudoInstructionsExpand : Prop :=
  (∀ bytes : List Nat, (∀ b ∈ bytes, b < 256) →
    assembleLine (.crcSeq bytes) = some (bytes.map (fun b => 0x11000000#32 ||| BitVec.ofNat 32 b)) ∧
    assembleLine (.crcStr bytes) = some (bytes.map (fun b => 0x11000000#32 ||| BitVec.ofNat 32 b)) ∧
    assembleLine (.crcOf bytes) =
      some (0x10000000#32 :: bytes.map (fun b => 0x11000000#32 ||| BitVec.ofNat 32 b) ++ [0x12000000#32]) ∧
    (bytes.length ≤ 45 → ∀ line, line = .binLoad bytes ∨ line = .binLoads bytes → assembleLine line =
      some (bytes.mapIdx (fun k b => 0x20000000#32 ||| BitVec.ofNat 32 (65536 * k) ||| BitVec.ofNat 32 b) ++
        [0x22000000#32 ||| BitVec.ofNat 32 bytes.length])) ∧
    (bytes.length ≤ 61 → assembleLine (.chrLoad bytes) =
      some (bytes.mapIdx (fun k b => 0x28000000#32 ||| BitVec.ofNat 32 (65536 * k) ||| BitVec.ofNat 32 b) ++
        [0x2A000000#32 ||| BitVec.ofNat 32 bytes.length]))) ∧
  assembleLine .binClear = some [0x22000000#32]

/-- R68 and R100 to R106: the transactions of a load leave the bytes in the entries from 0 on and their number in the
length, and every other entry as it was. That `chr.load` takes an empty text is the model's choice (assumption log
10). -/
def Obligations.LoadsFillTheBuffers : Prop :=
  (∀ (bytes : List Nat) (words : List Word) (s : State) (rest : List HostEvent),
    assembleLine (.binLoad bytes) = some words → s.ready = true → s.script = transactions words ++ rest →
    ∃ t : State, runSteps (2 * words.length) s = .next t ∧ t.ready = true ∧ t.script = rest ∧
      t.binLen.toNat = bytes.length ∧
      (∀ j, t.bin.entry j = if j < bytes.length then some (BitVec.ofNat 8 (bytes.getD j 0)) else s.bin.entry j) ∧
      t.acc = s.acc ∧ t.chrLen = s.chrLen ∧ SameChr s t) ∧
  (∀ (bytes : List Nat) (words : List Word) (s : State) (rest : List HostEvent),
    assembleLine (.chrLoad bytes) = some words → s.ready = true → s.script = transactions words ++ rest →
    ∃ t : State, runSteps (2 * words.length) s = .next t ∧ t.ready = true ∧ t.script = rest ∧
      t.chrLen.toNat = bytes.length ∧
      (∀ j, t.chr.entry j = if j < bytes.length then some (BitVec.ofNat 8 (bytes.getD j 0)) else s.chr.entry j) ∧
      t.acc = s.acc ∧ t.binLen = s.binLen ∧ SameBin s t)
end

