-- ==== Sys2Proof/Laws/Codec.lean ====
section
/-! SUPPORT. The laws of the text frame's characters, lengths and triples, and of its status computation. -/

namespace Sys2Proof.Machine

/-! ### Characters -/

/-- `dec_char` inverts `enc_char` (R121). -/
@[simp] theorem decChar_encChar (g : Group) : decChar (encChar g) = g := by revert g; decide

/-- Every encoded character is valid, whatever `ACCEPT_SPACE` (R120, R121). -/
@[simp] theorem validChar_encChar (b : Bool) (g : Group) : validChar b (encChar g) = true := by revert b g; decide

/-- The character test does not look at `ACCEPT_SPACE` but for the space character (R121). -/
theorem validChar_of_ne_space (b b' : Bool) {c : Byte} (h : c ≠ 0x20#8) : validChar b c = validChar b' c := by
  have : (c == 0x20#8) = false := by simpa using h
  simp [validChar, this]

/-! ### Lengths -/

theorem frameLength_pos (n : Nat) : 0 < frameLength n := by unfold frameLength; omega

theorem frameLength_le {n : Nat} (h : n ≤ 45) : frameLength n ≤ 61 := by
  unfold frameLength tripleCount; omega

/-- Every payload byte lies in a triple whose four characters are in the frame (R122). -/
theorem triple_in_frame {n i : Nat} (h : i < n) : 4 + 4 * (i / 3) < frameLength n := by
  unfold frameLength tripleCount; omega

@[simp] theorem length_encodeFrame (payload : List Byte) :
    (encodeFrame payload).length = frameLength payload.length := by simp [encodeFrame]

theorem getD_encodeFrame {payload : List Byte} {i : Nat} (h : i < frameLength payload.length) :
    (encodeFrame payload).getD i 0#8 = frameChar payload i := by
  rw [List.getD_eq_getElem _ _ (by simpa using h)]
  simp [encodeFrame]

@[simp] theorem length_linePayload (line : List Byte) : (linePayload line).length = lineCount line := by
  simp [linePayload]

theorem getD_linePayload {line : List Byte} {i : Nat} (h : i < lineCount line) :
    (linePayload line).getD i 0#8 = tripleByte (lineTriple line (i / 3)) (i % 3) := by
  rw [List.getD_eq_getElem _ _ (by simpa using h)]
  simp [linePayload]

/-! ### Frames -/

@[simp] theorem frameChar_zero (payload : List Byte) :
    frameChar payload 0 = encChar (BitVec.ofNat 6 payload.length) := rfl

/-- The four characters of triple `k` (R123). -/
theorem frameChar_triple (payload : List Byte) (k : Nat) {j : Nat} (h : j < 4) :
    frameChar payload (1 + j + 4 * k) = encChar (groupOf (tripleOf payload k) j) := by
  rw [frameChar, if_neg (by omega), show (1 + j + 4 * k - 1) / 4 = k by omega,
    show (1 + j + 4 * k - 1) % 4 = j by omega]

/-- The four groups of a triple, joined, are the triple (R123, R125). -/
theorem join_groups (t : Triple) :
    (groupOf t 0 ++ groupOf t 1 ++ groupOf t 2 ++ groupOf t 3 : BitVec (6 + 6 + 6 + 6)) = t := by
  apply BitVec.eq_of_getLsbD_eq
  intro i hi
  have hi : i < 24 := hi
  interval_cases i <;> simp only [groupOf, BitVec.getLsbD_append, BitVec.getLsbD_extractLsb'] <;> simp

/-- Byte `j` of a triple of payload bytes is payload byte `3k + j` (R123, R125). -/
theorem tripleByte_tripleOf (payload : List Byte) (k : Nat) {j : Nat} (h : j < 3) :
    tripleByte (tripleOf payload k) j = paddedByte payload (3 * k + j) := by
  apply BitVec.eq_of_getLsbD_eq
  intro i hi
  interval_cases j <;> interval_cases i <;>
    simp only [tripleByte, tripleOf, BitVec.getLsbD_append, BitVec.getLsbD_extractLsb'] <;> simp

/-! ### The status of a line -/

/-- The one case in which a line passes every check of txt.dec (R125). -/
theorem lineStatus_eq_ok_iff (b : Bool) (line : List Byte) :
    lineStatus b line = .ok ↔ line.length ≠ 0 ∧ (∀ c ∈ line, validChar b c = true) ∧ lineCount line ≤ 45 ∧
      line.length = frameLength (lineCount line) := by
  unfold lineStatus
  have hv : (line.any fun c => !validChar b c) = true ↔ ¬ ∀ c ∈ line, validChar b c = true := by simp
  split_ifs with h1 h2 h3 h4
  · simp [h1]
  · simp [hv.1 h2]
  · simp only [Config.nBin] at h3
    simp only [false_iff]
    omega
  · simp [h4]
  · simp only [Config.nBin] at h3
    simp only [ne_eq, not_not] at h4
    exact ⟨fun _ => ⟨h1, not_not.1 (fun h => h2 (hv.2 h)), by omega, h4⟩, fun _ => rfl⟩

end Sys2Proof.Machine
end

