-- ==== Sys2Proof/Laws/Decode.lean ====
section
/-! SUPPORT. The laws of a command word: it is its four fields, and a row of the opcode map selects a word by them. -/

namespace Sys2Proof

/-- A word is its four fields (R61). -/
theorem packWord_fields (w : Word) : packWord (opField w) (idxField w) (rsvField w) (immField w) = w := by
  apply BitVec.eq_of_getLsbD_eq
  intro i hi
  interval_cases i <;>
    simp only [packWord, opField, idxField, rsvField, immField, BitVec.getLsbD_append, BitVec.getLsbD_extractLsb'] <;>
    simp

section
variable (op idx rsv imm : Byte)

@[simp] theorem opField_packWord : opField (packWord op idx rsv imm) = op := by
  apply BitVec.eq_of_getLsbD_eq
  intro i hi
  interval_cases i <;> simp only [packWord, opField, BitVec.getLsbD_append, BitVec.getLsbD_extractLsb'] <;> simp

@[simp] theorem idxField_packWord : idxField (packWord op idx rsv imm) = idx := by
  apply BitVec.eq_of_getLsbD_eq
  intro i hi
  interval_cases i <;> simp only [packWord, idxField, BitVec.getLsbD_append, BitVec.getLsbD_extractLsb'] <;> simp

@[simp] theorem rsvField_packWord : rsvField (packWord op idx rsv imm) = rsv := by
  apply BitVec.eq_of_getLsbD_eq
  intro i hi
  interval_cases i <;> simp only [packWord, rsvField, BitVec.getLsbD_append, BitVec.getLsbD_extractLsb'] <;> simp

@[simp] theorem immField_packWord : immField (packWord op idx rsv imm) = imm := by
  apply BitVec.eq_of_getLsbD_eq
  intro i hi
  interval_cases i <;> simp only [packWord, immField, BitVec.getLsbD_append, BitVec.getLsbD_extractLsb'] <;> simp

end

/-- Two words are equal exactly when their fields are. -/
theorem packWord_inj {a b c d a' b' c' d' : Byte} :
    packWord a b c d = packWord a' b' c' d' ↔ a = a' ∧ b = b' ∧ c = c' ∧ d = d' := by
  constructor
  · intro h
    exact ⟨by simpa using congrArg opField h, by simpa using congrArg idxField h, by simpa using congrArg rsvField h,
      by simpa using congrArg immField h⟩
  · rintro ⟨rfl, rfl, rfl, rfl⟩
    rfl

/-- AND of words is AND of their fields. -/
theorem packWord_and (a b c d a' b' c' d' : Byte) :
    packWord a b c d &&& packWord a' b' c' d' = packWord (a &&& a') (b &&& b') (c &&& c') (d &&& d') := by
  apply BitVec.eq_of_getLsbD_eq
  intro i hi
  interval_cases i <;> simp only [packWord, BitVec.getLsbD_append, BitVec.getLsbD_and] <;> simp

theorem selects_iff (row : OpcodeRow) (w : Word) : row.selects w = true ↔ w &&& row.mask = row.pattern := by
  simp [OpcodeRow.selects]

/-- The `op` values of the opcode map are distinct (R64). -/
theorem code_injective {a b : Opcode} (h : a.code = b.code) : a = b := by
  revert h
  cases a <;> cases b <;> simp [Opcode.code]

/-- A word that no row selects decodes to no command (R65(b)). -/
theorem decode_of_unselected {w : Word} (h : ∀ row ∈ opcodeTable, row.selects w = false) :
    ∃ e, decode w = .error e := by
  have hf : opcodeTable.find? (fun row => row.selects w) = none := by
    rw [List.find?_eq_none]
    intro row hr
    simp [h row hr]
  rw [decode, hf]
  exact ⟨_, rfl⟩

/-- A word that decodes is selected by the row whose command it decodes to (R65(a)). -/
theorem decode_ok_selected {w : Word} {i : Instr} (h : decode w = .ok i) :
    ∃ row ∈ opcodeTable, row.selects w = true ∧ i = row.opcode.withOperands (idxField w) (immField w) := by
  rw [decode] at h
  cases hf : opcodeTable.find? (fun row => row.selects w) with
  | none => rw [hf] at h; cases h
  | some row =>
    rw [hf] at h
    exact ⟨row, List.mem_of_find?_eq_some hf, by simpa using List.find?_some hf, (Except.ok.inj h).symm⟩

end Sys2Proof
end

