-- ==== Sys2Proof/Laws/State.lean ====
section
/-! SUPPORT. One lemma per field per update of the state, so that no proof unfolds a record update. -/

namespace Sys2Proof.Machine

section
variable (s : State) (v : Word)
@[simp] theorem State.setAcc_acc : (s.setAcc v).acc = v := rfl
@[simp] theorem State.setAcc_bin : (s.setAcc v).bin = s.bin := rfl
@[simp] theorem State.setAcc_binLen : (s.setAcc v).binLen = s.binLen := rfl
@[simp] theorem State.setAcc_chr : (s.setAcc v).chr = s.chr := rfl
@[simp] theorem State.setAcc_chrLen : (s.setAcc v).chrLen = s.chrLen := rfl
@[simp] theorem State.setAcc_inReset : (s.setAcc v).inReset = s.inReset := rfl
@[simp] theorem State.setAcc_outstanding : (s.setAcc v).outstanding = s.outstanding := rfl
@[simp] theorem State.setAcc_acceptSpace : (s.setAcc v).acceptSpace = s.acceptSpace := rfl
@[simp] theorem State.setAcc_draws : (s.setAcc v).draws = s.draws := rfl
@[simp] theorem State.setAcc_script : (s.setAcc v).script = s.script := rfl
@[simp] theorem State.setAcc_received : (s.setAcc v).received = s.received := rfl
end

section
variable (s : State) (v : Memory)
@[simp] theorem State.setBin_acc : (s.setBin v).acc = s.acc := rfl
@[simp] theorem State.setBin_bin : (s.setBin v).bin = v := rfl
@[simp] theorem State.setBin_binLen : (s.setBin v).binLen = s.binLen := rfl
@[simp] theorem State.setBin_chr : (s.setBin v).chr = s.chr := rfl
@[simp] theorem State.setBin_chrLen : (s.setBin v).chrLen = s.chrLen := rfl
@[simp] theorem State.setBin_inReset : (s.setBin v).inReset = s.inReset := rfl
@[simp] theorem State.setBin_outstanding : (s.setBin v).outstanding = s.outstanding := rfl
@[simp] theorem State.setBin_acceptSpace : (s.setBin v).acceptSpace = s.acceptSpace := rfl
@[simp] theorem State.setBin_draws : (s.setBin v).draws = s.draws := rfl
@[simp] theorem State.setBin_script : (s.setBin v).script = s.script := rfl
@[simp] theorem State.setBin_received : (s.setBin v).received = s.received := rfl
end

section
variable (s : State) (v : Length)
@[simp] theorem State.setBinLen_acc : (s.setBinLen v).acc = s.acc := rfl
@[simp] theorem State.setBinLen_bin : (s.setBinLen v).bin = s.bin := rfl
@[simp] theorem State.setBinLen_binLen : (s.setBinLen v).binLen = v := rfl
@[simp] theorem State.setBinLen_chr : (s.setBinLen v).chr = s.chr := rfl
@[simp] theorem State.setBinLen_chrLen : (s.setBinLen v).chrLen = s.chrLen := rfl
@[simp] theorem State.setBinLen_inReset : (s.setBinLen v).inReset = s.inReset := rfl
@[simp] theorem State.setBinLen_outstanding : (s.setBinLen v).outstanding = s.outstanding := rfl
@[simp] theorem State.setBinLen_acceptSpace : (s.setBinLen v).acceptSpace = s.acceptSpace := rfl
@[simp] theorem State.setBinLen_draws : (s.setBinLen v).draws = s.draws := rfl
@[simp] theorem State.setBinLen_script : (s.setBinLen v).script = s.script := rfl
@[simp] theorem State.setBinLen_received : (s.setBinLen v).received = s.received := rfl
end

section
variable (s : State) (v : Memory)
@[simp] theorem State.setChr_acc : (s.setChr v).acc = s.acc := rfl
@[simp] theorem State.setChr_bin : (s.setChr v).bin = s.bin := rfl
@[simp] theorem State.setChr_binLen : (s.setChr v).binLen = s.binLen := rfl
@[simp] theorem State.setChr_chr : (s.setChr v).chr = v := rfl
@[simp] theorem State.setChr_chrLen : (s.setChr v).chrLen = s.chrLen := rfl
@[simp] theorem State.setChr_inReset : (s.setChr v).inReset = s.inReset := rfl
@[simp] theorem State.setChr_outstanding : (s.setChr v).outstanding = s.outstanding := rfl
@[simp] theorem State.setChr_acceptSpace : (s.setChr v).acceptSpace = s.acceptSpace := rfl
@[simp] theorem State.setChr_draws : (s.setChr v).draws = s.draws := rfl
@[simp] theorem State.setChr_script : (s.setChr v).script = s.script := rfl
@[simp] theorem State.setChr_received : (s.setChr v).received = s.received := rfl
end

section
variable (s : State) (v : Length)
@[simp] theorem State.setChrLen_acc : (s.setChrLen v).acc = s.acc := rfl
@[simp] theorem State.setChrLen_bin : (s.setChrLen v).bin = s.bin := rfl
@[simp] theorem State.setChrLen_binLen : (s.setChrLen v).binLen = s.binLen := rfl
@[simp] theorem State.setChrLen_chr : (s.setChrLen v).chr = s.chr := rfl
@[simp] theorem State.setChrLen_chrLen : (s.setChrLen v).chrLen = v := rfl
@[simp] theorem State.setChrLen_inReset : (s.setChrLen v).inReset = s.inReset := rfl
@[simp] theorem State.setChrLen_outstanding : (s.setChrLen v).outstanding = s.outstanding := rfl
@[simp] theorem State.setChrLen_acceptSpace : (s.setChrLen v).acceptSpace = s.acceptSpace := rfl
@[simp] theorem State.setChrLen_draws : (s.setChrLen v).draws = s.draws := rfl
@[simp] theorem State.setChrLen_script : (s.setChrLen v).script = s.script := rfl
@[simp] theorem State.setChrLen_received : (s.setChrLen v).received = s.received := rfl
end

section
variable (s : State) (v : Bool)
@[simp] theorem State.setInReset_acc : (s.setInReset v).acc = s.acc := rfl
@[simp] theorem State.setInReset_bin : (s.setInReset v).bin = s.bin := rfl
@[simp] theorem State.setInReset_binLen : (s.setInReset v).binLen = s.binLen := rfl
@[simp] theorem State.setInReset_chr : (s.setInReset v).chr = s.chr := rfl
@[simp] theorem State.setInReset_chrLen : (s.setInReset v).chrLen = s.chrLen := rfl
@[simp] theorem State.setInReset_inReset : (s.setInReset v).inReset = v := rfl
@[simp] theorem State.setInReset_outstanding : (s.setInReset v).outstanding = s.outstanding := rfl
@[simp] theorem State.setInReset_acceptSpace : (s.setInReset v).acceptSpace = s.acceptSpace := rfl
@[simp] theorem State.setInReset_draws : (s.setInReset v).draws = s.draws := rfl
@[simp] theorem State.setInReset_script : (s.setInReset v).script = s.script := rfl
@[simp] theorem State.setInReset_received : (s.setInReset v).received = s.received := rfl
end

section
variable (s : State) (v : Option Response)
@[simp] theorem State.setOutstanding_acc : (s.setOutstanding v).acc = s.acc := rfl
@[simp] theorem State.setOutstanding_bin : (s.setOutstanding v).bin = s.bin := rfl
@[simp] theorem State.setOutstanding_binLen : (s.setOutstanding v).binLen = s.binLen := rfl
@[simp] theorem State.setOutstanding_chr : (s.setOutstanding v).chr = s.chr := rfl
@[simp] theorem State.setOutstanding_chrLen : (s.setOutstanding v).chrLen = s.chrLen := rfl
@[simp] theorem State.setOutstanding_inReset : (s.setOutstanding v).inReset = s.inReset := rfl
@[simp] theorem State.setOutstanding_outstanding : (s.setOutstanding v).outstanding = v := rfl
@[simp] theorem State.setOutstanding_acceptSpace : (s.setOutstanding v).acceptSpace = s.acceptSpace := rfl
@[simp] theorem State.setOutstanding_draws : (s.setOutstanding v).draws = s.draws := rfl
@[simp] theorem State.setOutstanding_script : (s.setOutstanding v).script = s.script := rfl
@[simp] theorem State.setOutstanding_received : (s.setOutstanding v).received = s.received := rfl
end

section
variable (s : State) (v : Nat)
@[simp] theorem State.setDraws_acc : (s.setDraws v).acc = s.acc := rfl
@[simp] theorem State.setDraws_bin : (s.setDraws v).bin = s.bin := rfl
@[simp] theorem State.setDraws_binLen : (s.setDraws v).binLen = s.binLen := rfl
@[simp] theorem State.setDraws_chr : (s.setDraws v).chr = s.chr := rfl
@[simp] theorem State.setDraws_chrLen : (s.setDraws v).chrLen = s.chrLen := rfl
@[simp] theorem State.setDraws_inReset : (s.setDraws v).inReset = s.inReset := rfl
@[simp] theorem State.setDraws_outstanding : (s.setDraws v).outstanding = s.outstanding := rfl
@[simp] theorem State.setDraws_acceptSpace : (s.setDraws v).acceptSpace = s.acceptSpace := rfl
@[simp] theorem State.setDraws_draws : (s.setDraws v).draws = v := rfl
@[simp] theorem State.setDraws_script : (s.setDraws v).script = s.script := rfl
@[simp] theorem State.setDraws_received : (s.setDraws v).received = s.received := rfl
end

section
variable (s : State) (v : List HostEvent)
@[simp] theorem State.setScript_acc : (s.setScript v).acc = s.acc := rfl
@[simp] theorem State.setScript_bin : (s.setScript v).bin = s.bin := rfl
@[simp] theorem State.setScript_binLen : (s.setScript v).binLen = s.binLen := rfl
@[simp] theorem State.setScript_chr : (s.setScript v).chr = s.chr := rfl
@[simp] theorem State.setScript_chrLen : (s.setScript v).chrLen = s.chrLen := rfl
@[simp] theorem State.setScript_inReset : (s.setScript v).inReset = s.inReset := rfl
@[simp] theorem State.setScript_outstanding : (s.setScript v).outstanding = s.outstanding := rfl
@[simp] theorem State.setScript_acceptSpace : (s.setScript v).acceptSpace = s.acceptSpace := rfl
@[simp] theorem State.setScript_draws : (s.setScript v).draws = s.draws := rfl
@[simp] theorem State.setScript_script : (s.setScript v).script = v := rfl
@[simp] theorem State.setScript_received : (s.setScript v).received = s.received := rfl
end

section
variable (s : State) (v : List Response)
@[simp] theorem State.setReceived_acc : (s.setReceived v).acc = s.acc := rfl
@[simp] theorem State.setReceived_bin : (s.setReceived v).bin = s.bin := rfl
@[simp] theorem State.setReceived_binLen : (s.setReceived v).binLen = s.binLen := rfl
@[simp] theorem State.setReceived_chr : (s.setReceived v).chr = s.chr := rfl
@[simp] theorem State.setReceived_chrLen : (s.setReceived v).chrLen = s.chrLen := rfl
@[simp] theorem State.setReceived_inReset : (s.setReceived v).inReset = s.inReset := rfl
@[simp] theorem State.setReceived_outstanding : (s.setReceived v).outstanding = s.outstanding := rfl
@[simp] theorem State.setReceived_acceptSpace : (s.setReceived v).acceptSpace = s.acceptSpace := rfl
@[simp] theorem State.setReceived_draws : (s.setReceived v).draws = s.draws := rfl
@[simp] theorem State.setReceived_script : (s.setReceived v).script = s.script := rfl
@[simp] theorem State.setReceived_received : (s.setReceived v).received = v := rfl
end

section
variable (s : State)
@[simp] theorem resetBlock_acc : (resetBlock s).acc = 0xFFFFFFFF#32 := rfl
@[simp] theorem resetBlock_bin : (resetBlock s).bin = [] := rfl
@[simp] theorem resetBlock_binLen : (resetBlock s).binLen = 0#6 := rfl
@[simp] theorem resetBlock_chr : (resetBlock s).chr = [] := rfl
@[simp] theorem resetBlock_chrLen : (resetBlock s).chrLen = 0#6 := rfl
@[simp] theorem resetBlock_inReset : (resetBlock s).inReset = true := rfl
@[simp] theorem resetBlock_outstanding : (resetBlock s).outstanding = none := rfl
@[simp] theorem resetBlock_acceptSpace : (resetBlock s).acceptSpace = s.acceptSpace := rfl
@[simp] theorem resetBlock_draws : (resetBlock s).draws = s.draws := rfl
@[simp] theorem resetBlock_script : (resetBlock s).script = s.script := rfl
@[simp] theorem resetBlock_received : (resetBlock s).received = s.received := rfl

@[simp] theorem deliver_acc : (deliver s).acc = s.acc := rfl
@[simp] theorem deliver_bin : (deliver s).bin = s.bin := rfl
@[simp] theorem deliver_binLen : (deliver s).binLen = s.binLen := rfl
@[simp] theorem deliver_chr : (deliver s).chr = s.chr := rfl
@[simp] theorem deliver_chrLen : (deliver s).chrLen = s.chrLen := rfl
@[simp] theorem deliver_inReset : (deliver s).inReset = s.inReset := rfl
@[simp] theorem deliver_outstanding : (deliver s).outstanding = none := rfl
@[simp] theorem deliver_acceptSpace : (deliver s).acceptSpace = s.acceptSpace := rfl
@[simp] theorem deliver_draws : (deliver s).draws = s.draws := rfl
@[simp] theorem deliver_script : (deliver s).script = s.script := rfl
@[simp] theorem deliver_received : (deliver s).received = s.received ++ s.outstanding.toList := rfl
end

section
variable (s : State) (bytes : List Byte)
@[simp] theorem storeFrame_acc : (storeFrame bytes s).acc = s.acc := rfl
@[simp] theorem storeFrame_bin : (storeFrame bytes s).bin = s.bin := rfl
@[simp] theorem storeFrame_binLen : (storeFrame bytes s).binLen = s.binLen := rfl
@[simp] theorem storeFrame_chr : (storeFrame bytes s).chr = s.chr.writeFrom 0 bytes := rfl
@[simp] theorem storeFrame_chrLen : (storeFrame bytes s).chrLen = lengthOfCount bytes.length := rfl
@[simp] theorem storeFrame_inReset : (storeFrame bytes s).inReset = s.inReset := rfl
@[simp] theorem storeFrame_outstanding : (storeFrame bytes s).outstanding = s.outstanding := rfl
@[simp] theorem storeFrame_acceptSpace : (storeFrame bytes s).acceptSpace = s.acceptSpace := rfl
@[simp] theorem storeFrame_draws : (storeFrame bytes s).draws = s.draws := rfl
@[simp] theorem storeFrame_script : (storeFrame bytes s).script = s.script := rfl
@[simp] theorem storeFrame_received : (storeFrame bytes s).received = s.received := rfl
@[simp] theorem storePayload_acc : (storePayload bytes s).acc = s.acc := rfl
@[simp] theorem storePayload_bin : (storePayload bytes s).bin = s.bin.writeFrom 0 bytes := rfl
@[simp] theorem storePayload_binLen : (storePayload bytes s).binLen = lengthOfCount bytes.length := rfl
@[simp] theorem storePayload_chr : (storePayload bytes s).chr = s.chr := rfl
@[simp] theorem storePayload_chrLen : (storePayload bytes s).chrLen = s.chrLen := rfl
@[simp] theorem storePayload_inReset : (storePayload bytes s).inReset = s.inReset := rfl
@[simp] theorem storePayload_outstanding : (storePayload bytes s).outstanding = s.outstanding := rfl
@[simp] theorem storePayload_acceptSpace : (storePayload bytes s).acceptSpace = s.acceptSpace := rfl
@[simp] theorem storePayload_draws : (storePayload bytes s).draws = s.draws := rfl
@[simp] theorem storePayload_script : (storePayload bytes s).script = s.script := rfl
@[simp] theorem storePayload_received : (storePayload bytes s).received = s.received := rfl
end

section
variable (b : Bool)
@[simp] theorem State.resetOf_acc : (State.resetOf b).acc = 0xFFFFFFFF#32 := rfl
@[simp] theorem State.resetOf_bin : (State.resetOf b).bin = [] := rfl
@[simp] theorem State.resetOf_binLen : (State.resetOf b).binLen = 0#6 := rfl
@[simp] theorem State.resetOf_chr : (State.resetOf b).chr = [] := rfl
@[simp] theorem State.resetOf_chrLen : (State.resetOf b).chrLen = 0#6 := rfl
@[simp] theorem State.resetOf_inReset : (State.resetOf b).inReset = false := rfl
@[simp] theorem State.resetOf_outstanding : (State.resetOf b).outstanding = none := rfl
@[simp] theorem State.resetOf_acceptSpace : (State.resetOf b).acceptSpace = b := rfl
@[simp] theorem State.resetOf_draws : (State.resetOf b).draws = 0 := rfl
@[simp] theorem State.resetOf_script : (State.resetOf b).script = [] := rfl
@[simp] theorem State.resetOf_received : (State.resetOf b).received = [] := rfl
end

end Sys2Proof.Machine
end

