-- ==== Sys2Proof/Laws/Exec.lean ====
section
/-! SUPPORT. What each shared operation and each meaning answers, once; and what one step can be. -/

namespace Sys2Proof.Machine

/-! ### Shared operations -/

theorem respond_eq (st : Status) (data : Word) (s : State) :
    respond st data s = .next (s.setOutstanding (some ⟨st, data⟩)) := rfl

/-- All that `respond` can answer. -/
theorem respond_eq_next {st : Status} {data : Word} {s t : State} (h : respond st data s = .next t) :
    t = s.setOutstanding (some ⟨st, data⟩) := by
  rw [respond_eq] at h
  exact (Host.Outcome.next.inj h).symm

theorem raiseStatus_eq (st : Status) (s : State) :
    raiseStatus st s = .next (s.setOutstanding (some ⟨st, 0#32⟩)) := rfl

/-- A raised status writes no state (R151). -/
theorem raiseStatus_failsWith (st : Status) (s : State) : FailsWith st s.draws s (raiseStatus st s) :=
  ⟨_, rfl, rfl, ⟨⟨rfl, rfl, rfl, fun _ => rfl, fun _ => rfl⟩, rfl, rfl, rfl, rfl⟩, rfl⟩

@[simp] theorem unlessRange_ok (s : State) (go : Result) : unlessRange .ok s go = go := rfl

@[simp] theorem unlessRange_range (s : State) (go : Result) : unlessRange .range s go = raiseStatus .range s := rfl

theorem indexStatus_of_lt {size : Nat} {idx : Byte} (h : idx.toNat < size) : indexStatus size idx = .ok := by
  simp [indexStatus, indexInSpace, h]

theorem indexStatus_of_ge {size : Nat} {idx : Byte} (h : size ≤ idx.toNat) : indexStatus size idx = .range := by
  simp [indexStatus, indexInSpace, h]

theorem lengthStatus_of_le {size : Nat} {imm : Byte} (h : imm.toNat ≤ size) : lengthStatus size imm = .ok := by
  simp [lengthStatus, lengthInSpace, h]

theorem lengthStatus_of_gt {size : Nat} {imm : Byte} (h : size < imm.toNat) : lengthStatus size imm = .range := by
  simp [lengthStatus, lengthInSpace, h]

/-- A length operand within either buffer fits the 6-bit register. -/
theorem toNat_lengthOperand {imm : Byte} (h : imm.toNat < 64) : (lengthOperand imm).toNat = imm.toNat := by
  simp [lengthOperand, Nat.mod_eq_of_lt h]

theorem toNat_lengthOfCount {n : Nat} (h : n < 64) : (lengthOfCount n).toNat = n := by
  simp [lengthOfCount, Nat.mod_eq_of_lt h]

@[simp] theorem toNat_zextByte (b : Byte) : (zextByte b).toNat = b.toNat := by
  simp only [zextByte, BitVec.toNat_setWidth]; omega

@[simp] theorem toNat_zextLength (n : Length) : (zextLength n).toNat = n.toNat := by
  simp only [zextLength, BitVec.toNat_setWidth]; omega

/-! ### Meanings -/

theorem execBinWr_of_lt {idx : Byte} (imm : Byte) (s : State) (h : idx.toNat < 45) :
    execBinWr idx imm s = respond .ok 0#32 (s.setBin (s.bin.write idx.toNat imm)) := by
  rw [execBinWr, indexStatus_of_lt (size := Config.nBin) h, unlessRange_ok]

theorem execBinWr_of_ge {idx : Byte} (imm : Byte) (s : State) (h : 45 ≤ idx.toNat) :
    execBinWr idx imm s = raiseStatus .range s := by
  rw [execBinWr, indexStatus_of_ge (size := Config.nBin) h, unlessRange_range]

theorem execBinRd_of_lt {idx : Byte} (s : State) (h : idx.toNat < 45) :
    execBinRd idx s = respond .ok (zextByte (s.bin.read s.draws idx.toNat).1)
      (s.setDraws (s.bin.read s.draws idx.toNat).2) := by
  rw [execBinRd, indexStatus_of_lt (size := Config.nBin) h, unlessRange_ok]

theorem execBinRd_of_ge {idx : Byte} (s : State) (h : 45 ≤ idx.toNat) :
    execBinRd idx s = raiseStatus .range s := by
  rw [execBinRd, indexStatus_of_ge (size := Config.nBin) h, unlessRange_range]

theorem execBinLen_of_le {imm : Byte} (s : State) (h : imm.toNat ≤ 45) :
    execBinLen imm s = respond .ok 0#32 (s.setBinLen (lengthOperand imm)) := by
  rw [execBinLen, lengthStatus_of_le (size := Config.nBin) h, unlessRange_ok]

theorem execBinLen_of_gt {imm : Byte} (s : State) (h : 45 < imm.toNat) :
    execBinLen imm s = raiseStatus .range s := by
  rw [execBinLen, lengthStatus_of_gt (size := Config.nBin) h, unlessRange_range]

theorem execChrWr_of_lt {idx : Byte} (imm : Byte) (s : State) (h : idx.toNat < 61) :
    execChrWr idx imm s = respond .ok 0#32 (s.setChr (s.chr.write idx.toNat imm)) := by
  rw [execChrWr, indexStatus_of_lt (size := Config.nChr) h, unlessRange_ok]

theorem execChrWr_of_ge {idx : Byte} (imm : Byte) (s : State) (h : 61 ≤ idx.toNat) :
    execChrWr idx imm s = raiseStatus .range s := by
  rw [execChrWr, indexStatus_of_ge (size := Config.nChr) h, unlessRange_range]

theorem execChrRd_of_lt {idx : Byte} (s : State) (h : idx.toNat < 61) :
    execChrRd idx s = respond .ok (zextByte (s.chr.read s.draws idx.toNat).1)
      (s.setDraws (s.chr.read s.draws idx.toNat).2) := by
  rw [execChrRd, indexStatus_of_lt (size := Config.nChr) h, unlessRange_ok]

theorem execChrRd_of_ge {idx : Byte} (s : State) (h : 61 ≤ idx.toNat) :
    execChrRd idx s = raiseStatus .range s := by
  rw [execChrRd, indexStatus_of_ge (size := Config.nChr) h, unlessRange_range]

theorem execChrLen_of_le {imm : Byte} (s : State) (h : imm.toNat ≤ 61) :
    execChrLen imm s = respond .ok 0#32 (s.setChrLen (lengthOperand imm)) := by
  rw [execChrLen, lengthStatus_of_le (size := Config.nChr) h, unlessRange_ok]

theorem execChrLen_of_gt {imm : Byte} (s : State) (h : 61 < imm.toNat) :
    execChrLen imm s = raiseStatus .range s := by
  rw [execChrLen, lengthStatus_of_gt (size := Config.nChr) h, unlessRange_range]

theorem execTxtEnc_of_le {s : State} (h : s.binLen.toNat ≤ 45) :
    execTxtEnc s = respond .ok 0#32 (storeFrame (encodeFrame (payloadRead s).1) (s.setDraws (payloadRead s).2)) := by
  rw [execTxtEnc, if_neg (show ¬ Config.nBin < s.binLen.toNat from by unfold Config.nBin; omega)]

theorem execTxtDec_of_ok {s : State} (h : s.chrLen.toNat ≤ 61)
    (hl : lineStatus s.acceptSpace (lineRead s).1 = .ok) :
    execTxtDec s = respond .ok 0#32 (storePayload (linePayload (lineRead s).1) (s.setDraws (lineRead s).2)) := by
  rw [execTxtDec, if_neg (show ¬ Config.nChr < s.chrLen.toNat from by unfold Config.nChr; omega), hl]

theorem execTxtDec_of_ne_ok {s : State} (h : s.chrLen.toNat ≤ 61)
    (hl : lineStatus s.acceptSpace (lineRead s).1 ≠ .ok) :
    execTxtDec s = raiseStatus (lineStatus s.acceptSpace (lineRead s).1) (s.setDraws (lineRead s).2) := by
  rw [execTxtDec, if_neg (show ¬ Config.nChr < s.chrLen.toNat from by unfold Config.nChr; omega)]
  split
  · exact absurd ‹_› hl
  · rfl

/-! ### A step -/

theorem runWord_of_ok {w : Word} {i : Instr} (s : State) (h : decode w = .ok i) : runWord w s = exec i s := by
  rw [runWord, h]

theorem runWord_of_error {w : Word} {e : Illegal} (s : State) (h : decode w = .error e) :
    runWord w s = raiseStatus .illegal s := by rw [runWord, h]

theorem ready_iff (s : State) : s.ready = true ↔ s.inReset = false ∧ s.outstanding = none := by
  simp [State.ready]

theorem step_of_command {s : State} {w : Word} {rest : List HostEvent} (h : s.script = .command w :: rest)
    (hr : s.ready = true) : step s = runWord w (s.setScript rest) := by
  obtain ⟨h1, h2⟩ := (ready_iff s).1 hr
  simp [step, nextAct, h, hostAct, issueCommand, h1, h2]

theorem step_of_receive {s : State} {rest : List HostEvent} {r : Response} (h : s.script = .receive :: rest)
    (hr : s.outstanding = some r) : step s = .next (deliver (s.setScript rest)) := by
  simp [step, nextAct, h, hostAct, receiveResponse, hr]

theorem step_of_assertReset {s : State} {rest : List HostEvent} (h : s.script = .assertReset :: rest) :
    step s = .next (resetBlock (s.setScript rest)) := by simp [step, nextAct, h, hostAct]

theorem step_of_releaseReset {s : State} {rest : List HostEvent} (h : s.script = .releaseReset :: rest) :
    step s = .next ((s.setScript rest).setInReset false) := by simp [step, nextAct, h, hostAct]

theorem step_of_idle {s : State} (h : s.script = []) : step s = .next s := by simp [step, nextAct, h]

/-- All that a step to a next state can be: nothing left to do, a command the block takes, a response received, or
a change of the reset input. -/
theorem step_cases {s t : State} (h : step s = .next t) :
    (s.script = [] ∧ t = s) ∨
    (∃ w rest, s.script = .command w :: rest ∧ s.ready = true ∧ runWord w (s.setScript rest) = .next t) ∨
    (∃ rest r, s.script = .receive :: rest ∧ s.outstanding = some r ∧ t = deliver (s.setScript rest)) ∨
    (∃ rest, s.script = .assertReset :: rest ∧ t = resetBlock (s.setScript rest)) ∨
    (∃ rest, s.script = .releaseReset :: rest ∧ t = (s.setScript rest).setInReset false) := by
  cases hs : s.script with
  | nil =>
    rw [step_of_idle hs] at h
    exact .inl ⟨rfl, (Host.Outcome.next.inj h).symm⟩
  | cons e rest =>
    cases e with
    | command w =>
      by_cases hr : s.ready = true
      · rw [step_of_command hs hr] at h
        exact .inr (.inl ⟨w, rest, rfl, hr, h⟩)
      · rw [ready_iff] at hr
        cases h1 : s.inReset <;> cases h2 : s.outstanding <;>
          simp_all [step, nextAct, hostAct, issueCommand]
    | receive =>
      cases hr : s.outstanding with
      | none => simp [step, nextAct, hs, hostAct, receiveResponse, hr] at h
      | some r =>
        rw [step_of_receive hs hr] at h
        exact .inr (.inr (.inl ⟨rest, r, rfl, rfl, (Host.Outcome.next.inj h).symm⟩))
    | assertReset =>
      rw [step_of_assertReset hs] at h
      exact .inr (.inr (.inr (.inl ⟨rest, rfl, (Host.Outcome.next.inj h).symm⟩)))
    | releaseReset =>
      rw [step_of_releaseReset hs] at h
      exact .inr (.inr (.inr (.inr ⟨rest, rfl, (Host.Outcome.next.inj h).symm⟩)))

theorem runSteps_succ {s t : State} (k : Nat) (h : step s = .next t) : runSteps (k + 1) s = runSteps k t := by
  rw [runSteps, h]

/-- Running the machine on its own types is the host's `run` of it. -/
theorem runSteps_eq_run (k : Nat) (s : State) : runSteps k s = Host.Core.run core k s := by
  induction k generalizing s with
  | zero => rfl
  | succ k ih =>
    simp only [runSteps, Host.Core.run]
    cases h : step s with
    | next t => rw [show core.step s = .next t from h]; exact ih t
    | fault r => rw [show core.step s = .fault r from h]; rfl
    | refused r => rw [show core.step s = .refused r from h]; rfl

/-- A property of states that holds at reset under every script and that every step keeps holds of every reachable
state (R12). -/
theorem reachable_induction {P : State → Prop}
    (h0 : ∀ b script, P ((State.resetOf b).setScript script))
    (hstep : ∀ s t, P s → step s = .next t → P t) {s : State} (h : Reachable s) : P s := by
  induction h with
  | reset b script => exact h0 b script
  | step _ hs ih => exact hstep _ _ ih hs

end Sys2Proof.Machine
end

