-- ==== Sys2Proof/Laws/Memory.lean ====
section
/-! SUPPORT. The laws of a buffer space: a read after a write, what a write leaves alone, the canonical form is kept,
and what reading a run of entries gives. -/

namespace Sys2Proof.Machine

@[simp] theorem Memory.entry_nil (i : Nat) : Memory.entry [] i = none := rfl

theorem Memory.wf_nil (size : Nat) : Memory.wf size [] := ⟨List.Pairwise.nil, by simp⟩

theorem Memory.entry_cons (a : Nat) (b : Byte) (rest : Memory) (i : Nat) :
    Memory.entry ((a, b) :: rest) i = if a = i then some b else Memory.entry rest i := rfl

/-- An entry below every listed address is unwritten. -/
theorem Memory.entry_eq_none_of_lt {m : Memory} {i : Nat} (h : ∀ x ∈ m, i < x.1) : m.entry i = none := by
  induction m with
  | nil => rfl
  | cons x rest ih =>
    have hx := h x (by simp)
    rw [show x :: rest = (x.1, x.2) :: rest from rfl, Memory.entry_cons, if_neg (by omega)]
    exact ih (fun y hy => h y (by simp [hy]))

/-- The addresses after a write are the old ones and the written one. -/
theorem Memory.mem_write {m : Memory} {i : Nat} {v : Byte} {x : Host.Cell} (h : x ∈ m.write i v) :
    x = (i, v) ∨ x ∈ m := by
  induction m with
  | nil => simpa [Memory.write] using h
  | cons y rest ih =>
    rw [show y :: rest = (y.1, y.2) :: rest from rfl, Memory.write] at h
    split_ifs at h
    · simpa using h
    · rcases List.mem_cons.1 h with h | h
      · exact .inl h
      · exact .inr (List.mem_cons_of_mem _ h)
    · rcases List.mem_cons.1 h with h | h
      · exact .inr (by simp [h])
      · exact (ih h).imp_right (List.mem_cons_of_mem _)

/-- A write within the space keeps the canonical form. -/
theorem Memory.write_wf {size : Nat} {m : Memory} {i : Nat} (v : Byte) (hm : m.wf size) (hi : i < size) :
    (m.write i v).wf size := by
  refine ⟨?_, fun x hx => ?_⟩
  · have hs := hm.1
    clear hm
    induction m with
    | nil => simp [Memory.write]
    | cons y rest ih =>
      rw [show y :: rest = (y.1, y.2) :: rest from rfl] at hs ⊢
      have hr := List.pairwise_cons.1 hs
      rw [Memory.write]
      split_ifs with h1 h2
      · refine List.pairwise_cons.2 ⟨fun x hx => ?_, hs⟩
        rcases List.mem_cons.1 hx with rfl | hx
        · exact h1
        · exact lt_trans h1 (hr.1 x hx)
      · exact List.pairwise_cons.2 ⟨fun x hx => h2 ▸ hr.1 x hx, hr.2⟩
      · refine List.pairwise_cons.2 ⟨fun x hx => ?_, ih hr.2⟩
        rcases Memory.mem_write hx with rfl | hx
        · exact show y.1 < i by omega
        · exact hr.1 x hx
  · rcases Memory.mem_write hx with rfl | hx
    · exact hi
    · exact hm.2 x hx

/-- Reading the written entry gives the written value. -/
@[simp] theorem Memory.entry_write_self (m : Memory) (i : Nat) (v : Byte) : (m.write i v).entry i = some v := by
  induction m with
  | nil => simp [Memory.write, Memory.entry_cons]
  | cons y rest ih =>
    rw [show y :: rest = (y.1, y.2) :: rest from rfl, Memory.write]
    split_ifs with h1 h2
    · simp [Memory.entry_cons]
    · simp [Memory.entry_cons]
    · rw [Memory.entry_cons, if_neg (fun h => h2 h.symm), ih]

/-- A write leaves every other entry alone. -/
theorem Memory.entry_write_of_ne (m : Memory) {i j : Nat} (v : Byte) (h : j ≠ i) :
    (m.write i v).entry j = m.entry j := by
  induction m with
  | nil => simp [Memory.write, Memory.entry_cons, Ne.symm h]
  | cons y rest ih =>
    rw [show y :: rest = (y.1, y.2) :: rest from rfl, Memory.write]
    split_ifs with h1 h2
    · rw [Memory.entry_cons, if_neg (Ne.symm h)]
    · subst h2
      rw [Memory.entry_cons, Memory.entry_cons, if_neg (Ne.symm h), if_neg (Ne.symm h)]
    · rw [Memory.entry_cons, Memory.entry_cons, ih]

theorem Memory.entry_write (m : Memory) (i j : Nat) (v : Byte) :
    (m.write i v).entry j = if j = i then some v else m.entry j := by
  split_ifs with h
  · rw [h, Memory.entry_write_self]
  · exact m.entry_write_of_ne v h

/-- The entries after a sequence is written from `start` on. -/
theorem Memory.entry_writeFrom (m : Memory) (start : Nat) (bytes : List Byte) (j : Nat) :
    (m.writeFrom start bytes).entry j =
      if start ≤ j ∧ j < start + bytes.length then some (bytes.getD (j - start) 0#8) else m.entry j := by
  induction bytes generalizing m start with
  | nil => rw [if_neg (by simp only [List.length_nil]; omega)]; rfl
  | cons b rest ih =>
    rw [Memory.writeFrom, ih, Memory.entry_write]
    simp only [List.length_cons]
    by_cases hj : j = start
    · subst hj
      rw [if_neg (by omega), if_pos rfl, if_pos (by omega), Nat.sub_self]
      rfl
    · by_cases h : start + 1 ≤ j ∧ j < start + 1 + rest.length
      · rw [if_pos h, if_pos (by omega), show j - start = (j - (start + 1)) + 1 by omega, List.getD_cons_succ]
      · rw [if_neg h, if_neg hj, if_neg (by omega)]

/-- Writing a sequence that fits the space keeps the canonical form. -/
theorem Memory.writeFrom_wf {size : Nat} {m : Memory} {start : Nat} {bytes : List Byte} (hm : m.wf size)
    (h : start + bytes.length ≤ size) : (m.writeFrom start bytes).wf size := by
  induction bytes generalizing m start with
  | nil => exact hm
  | cons b rest ih =>
    simp only [List.length_cons] at h
    exact ih (Memory.write_wf b hm (by omega)) (by omega)

/-- Two spaces in canonical form with the same entries are equal. -/
theorem Memory.ext_of_wf {size : Nat} {m m' : Memory} (hm : m.wf size) (hm' : m'.wf size)
    (h : ∀ i, m.entry i = m'.entry i) : m = m' := by
  have hs := hm.1
  have hs' := hm'.1
  clear hm hm'
  induction m generalizing m' with
  | nil =>
    cases m' with
    | nil => rfl
    | cons y rest => simpa [show y :: rest = (y.1, y.2) :: rest from rfl, Memory.entry_cons] using h y.1
  | cons x rest ih =>
    obtain ⟨a, b⟩ := x
    have hr := List.pairwise_cons.1 hs
    cases m' with
    | nil => simpa [Memory.entry_cons] using h a
    | cons y rest' =>
      obtain ⟨a', b'⟩ := y
      have hr' := List.pairwise_cons.1 hs'
      have ha : a = a' := by
        by_contra hne
        rcases Nat.lt_or_gt_of_ne hne with hlt | hgt
        · have h1 := h a
          rw [Memory.entry_cons, if_pos rfl, Memory.entry_cons, if_neg (by omega),
            Memory.entry_eq_none_of_lt (fun z hz => lt_trans hlt (hr'.1 z hz))] at h1
          exact absurd h1 (by simp)
        · have h1 := h a'
          rw [Memory.entry_cons, if_neg (by omega), Memory.entry_cons, if_pos rfl,
            Memory.entry_eq_none_of_lt (fun z hz => lt_trans hgt (hr.1 z hz))] at h1
          exact absurd h1 (by simp)
      subst ha
      have hb : b = b' := by simpa [Memory.entry_cons] using h a
      subst hb
      congr 1
      refine ih (fun i => ?_) hr.2 hr'.2
      by_cases hi : a = i
      · subst hi
        rw [Memory.entry_eq_none_of_lt hr.1, Memory.entry_eq_none_of_lt hr'.1]
      · simpa [Memory.entry_cons, hi] using h i

/-! ### Reads -/

theorem Memory.read_eq (m : Memory) (d i : Nat) :
    m.read d i = ((m.entry i).getD (Config.draw d), d + if (m.entry i).isNone then 1 else 0) := by
  unfold Memory.read
  cases m.entry i <;> simp

/-- A read of a written entry gives its value and takes no draw (R26). -/
theorem Memory.read_of_written {m : Memory} {i : Nat} {v : Byte} (d : Nat) (h : m.entry i = some v) :
    m.read d i = (v, d) := by rw [Memory.read_eq, h]; rfl

/-- A read of an unwritten entry is the next draw (R26). -/
theorem Memory.read_of_unwritten {m : Memory} {i : Nat} (d : Nat) (h : m.entry i = none) :
    m.read d i = (Config.draw d, d + 1) := by rw [Memory.read_eq, h]; rfl

theorem Memory.unwrittenBelow_succ (m : Memory) (n : Nat) :
    m.unwrittenBelow (n + 1) = m.unwrittenBelow n + if (m.entry n).isNone then 1 else 0 := rfl

/-- Reading entries from `start` on, when the draws answered are those of the entries below `start`. -/
theorem Memory.readFrom_shift (m : Memory) (d start n : Nat) :
    m.readFrom (d + m.unwrittenBelow start) start n =
      ((List.range n).map (fun i => readValue m d (start + i)), d + m.unwrittenBelow (start + n)) := by
  induction n generalizing start with
  | zero => rfl
  | succ n ih =>
    have hd : d + m.unwrittenBelow start + (if (m.entry start).isNone then 1 else 0)
        = d + m.unwrittenBelow (start + 1) := by rw [Memory.unwrittenBelow_succ]; omega
    rw [Memory.readFrom, Memory.read_eq, hd]
    simp only [ih]
    rw [List.range_succ_eq_map, List.map_cons, List.map_map]
    refine Prod.ext ?_ ?_
    · simp only [List.cons.injEq]
      refine ⟨rfl, List.map_congr_left (fun i _ => ?_)⟩
      show readValue m d (start + 1 + i) = readValue m d (start + (i + 1))
      rw [show start + 1 + i = start + (i + 1) by omega]
    · show d + m.unwrittenBelow (start + 1 + n) = d + m.unwrittenBelow (start + (n + 1))
      rw [show start + 1 + n = start + (n + 1) by omega]

/-- Reading the entries `0 .. n-1`: the value of each, its own draw where it is unwritten. -/
theorem Memory.readFrom_zero (m : Memory) (d n : Nat) :
    m.readFrom d 0 n = ((List.range n).map (readValue m d), d + m.unwrittenBelow n) := by
  simpa [Memory.unwrittenBelow] using m.readFrom_shift d 0 n

@[simp] theorem Memory.length_readFrom_zero (m : Memory) (d n : Nat) : (m.readFrom d 0 n).1.length = n := by
  simp [Memory.readFrom_zero]

theorem readValue_of_written {m : Memory} {i : Nat} {v : Byte} (d : Nat) (h : m.entry i = some v) :
    readValue m d i = v := by simp [readValue, h]

/-- No draw is taken while every entry read is written. -/
theorem Memory.unwrittenBelow_eq_zero {m : Memory} {n : Nat} (h : ∀ i < n, (m.entry i).isSome) :
    m.unwrittenBelow n = 0 := by
  induction n with
  | zero => rfl
  | succ n ih =>
    rw [Memory.unwrittenBelow_succ, ih (fun i hi => h i (by omega))]
    have := h n (by omega)
    cases hn : m.entry n <;> simp_all

end Sys2Proof.Machine
end

