-- ==== Sys2Proof/Laws/Effect.lean ====
section
/-! SUPPORT. Everything a command can do, said once: what the two reads of the text frame give, and the cases of
`exec i s = .next t`. Proofs over all commands split on these cases instead of unfolding the meanings. -/

namespace Sys2Proof.Machine

/-- The line is the values of the entries below `CHR_LEN`, a draw of its own for each unwritten one (R26). -/
theorem lineRead_eq (s : State) : lineRead s = ((List.range s.chrLen.toNat).map (readValue s.chr s.draws),
    s.draws + s.chr.unwrittenBelow s.chrLen.toNat) := Memory.readFrom_zero _ _ _

/-- The payload is the values of the entries below `BIN_LEN`, a draw of its own for each unwritten one (R26). -/
theorem payloadRead_eq (s : State) : payloadRead s = ((List.range s.binLen.toNat).map (readValue s.bin s.draws),
    s.draws + s.bin.unwrittenBelow s.binLen.toNat) := Memory.readFrom_zero _ _ _

@[simp] theorem length_lineRead (s : State) : (lineRead s).1.length = s.chrLen.toNat := by simp [lineRead_eq]

@[simp] theorem length_payloadRead (s : State) : (payloadRead s).1.length = s.binLen.toNat := by
  simp [payloadRead_eq]

/-- txt.enc answers only in states with a legal `BIN_LEN`. -/
theorem execTxtEnc_next {s t : State} (h : execTxtEnc s = .next t) : s.binLen.toNat ≤ 45 := by
  by_contra hc
  rw [execTxtEnc, if_pos (show Config.nBin < s.binLen.toNat by unfold Config.nBin; omega)] at h
  cases h

/-- txt.dec answers only in states with a legal `CHR_LEN`: by success or by the status of the line. -/
theorem execTxtDec_next {s t : State} (h : execTxtDec s = .next t) : s.chrLen.toNat ≤ 61 ∧
    ((lineStatus s.acceptSpace (lineRead s).1 = .ok ∧
        t = (storePayload (linePayload (lineRead s).1) (s.setDraws (lineRead s).2)).setOutstanding
          (some ⟨.ok, 0#32⟩)) ∨
      (lineStatus s.acceptSpace (lineRead s).1 ≠ .ok ∧
        t = (s.setDraws (lineRead s).2).setOutstanding
          (some ⟨lineStatus s.acceptSpace (lineRead s).1, 0#32⟩))) := by
  have h61 : s.chrLen.toNat ≤ 61 := by
    by_contra hc
    rw [execTxtDec, if_pos (show Config.nChr < s.chrLen.toNat by unfold Config.nChr; omega)] at h
    cases h
  refine ⟨h61, ?_⟩
  by_cases hl : lineStatus s.acceptSpace (lineRead s).1 = .ok
  · rw [execTxtDec_of_ok h61 hl] at h
    exact .inl ⟨hl, respond_eq_next h⟩
  · rw [execTxtDec_of_ne_ok h61 hl] at h
    exact .inr ⟨hl, respond_eq_next h⟩

/-- What a command does to the state when it answers: a failure or a read writes nothing but the response and the
draws; every other case writes what its rule names, within the bounds that keep the state legal. -/
inductive Effect (s : State) : Instr → State → Prop where
  | fails (i : Instr) (st : Status) (d : Nat) (h : st ≠ .ok) :
      Effect s i ((s.setDraws d).setOutstanding (some ⟨st, 0#32⟩))
  | reads (i : Instr) (d : Nat) (data : Word) : Effect s i ((s.setDraws d).setOutstanding (some ⟨.ok, data⟩))
  | crcInit : Effect s .crcInit ((s.setAcc Config.crcInit).setOutstanding (some ⟨.ok, 0#32⟩))
  | crcByte (imm : Byte) : Effect s (.crcByte imm) ((s.setAcc (crcStep8 s.acc imm)).setOutstanding (some ⟨.ok, 0#32⟩))
  | binWr (idx imm : Byte) (h : idx.toNat < 45) :
      Effect s (.binWr idx imm) ((s.setBin (s.bin.write idx.toNat imm)).setOutstanding (some ⟨.ok, 0#32⟩))
  | binLen (imm : Byte) (h : imm.toNat ≤ 45) :
      Effect s (.binLen imm) ((s.setBinLen (lengthOperand imm)).setOutstanding (some ⟨.ok, 0#32⟩))
  | chrWr (idx imm : Byte) (h : idx.toNat < 61) :
      Effect s (.chrWr idx imm) ((s.setChr (s.chr.write idx.toNat imm)).setOutstanding (some ⟨.ok, 0#32⟩))
  | chrLen (imm : Byte) (h : imm.toNat ≤ 61) :
      Effect s (.chrLen imm) ((s.setChrLen (lengthOperand imm)).setOutstanding (some ⟨.ok, 0#32⟩))
  | txtEnc (frame : List Byte) (d : Nat) (h : frame.length ≤ 61) :
      Effect s .txtEnc ((storeFrame frame (s.setDraws d)).setOutstanding (some ⟨.ok, 0#32⟩))
  | txtDec (payload : List Byte) (d : Nat) (h : payload.length ≤ 45) :
      Effect s .txtDec ((storePayload payload (s.setDraws d)).setOutstanding (some ⟨.ok, 0#32⟩))

/-- A command that answers has one of the effects. -/
theorem exec_effect {i : Instr} {s t : State} (h : exec i s = .next t) : Effect s i t := by
  cases i with
  | crcInit => rw [respond_eq_next h]; exact .crcInit
  | crcByte imm => rw [respond_eq_next h]; exact .crcByte imm
  | crcRes => rw [respond_eq_next h]; exact .reads _ s.draws _
  | binGetlen => rw [respond_eq_next h]; exact .reads _ s.draws _
  | chrGetlen => rw [respond_eq_next h]; exact .reads _ s.draws _
  | binWr idx imm =>
    by_cases hi : idx.toNat < 45
    · rw [exec, execBinWr_of_lt imm s hi] at h
      rw [respond_eq_next h]; exact .binWr _ _ hi
    · rw [exec, execBinWr_of_ge imm s (Nat.le_of_not_lt hi)] at h
      rw [respond_eq_next h]; exact .fails _ .range s.draws (by decide)
  | chrWr idx imm =>
    by_cases hi : idx.toNat < 61
    · rw [exec, execChrWr_of_lt imm s hi] at h
      rw [respond_eq_next h]; exact .chrWr _ _ hi
    · rw [exec, execChrWr_of_ge imm s (Nat.le_of_not_lt hi)] at h
      rw [respond_eq_next h]; exact .fails _ .range s.draws (by decide)
  | binRd idx =>
    by_cases hi : idx.toNat < 45
    · rw [exec, execBinRd_of_lt s hi] at h
      rw [respond_eq_next h]; exact .reads _ _ _
    · rw [exec, execBinRd_of_ge s (Nat.le_of_not_lt hi)] at h
      rw [respond_eq_next h]; exact .fails _ .range s.draws (by decide)
  | chrRd idx =>
    by_cases hi : idx.toNat < 61
    · rw [exec, execChrRd_of_lt s hi] at h
      rw [respond_eq_next h]; exact .reads _ _ _
    · rw [exec, execChrRd_of_ge s (Nat.le_of_not_lt hi)] at h
      rw [respond_eq_next h]; exact .fails _ .range s.draws (by decide)
  | binLen imm =>
    by_cases hi : imm.toNat ≤ 45
    · rw [exec, execBinLen_of_le s hi] at h
      rw [respond_eq_next h]; exact .binLen _ hi
    · rw [exec, execBinLen_of_gt s (Nat.lt_of_not_le hi)] at h
      rw [respond_eq_next h]; exact .fails _ .range s.draws (by decide)
  | chrLen imm =>
    by_cases hi : imm.toNat ≤ 61
    · rw [exec, execChrLen_of_le s hi] at h
      rw [respond_eq_next h]; exact .chrLen _ hi
    · rw [exec, execChrLen_of_gt s (Nat.lt_of_not_le hi)] at h
      rw [respond_eq_next h]; exact .fails _ .range s.draws (by decide)
  | txtEnc =>
    have hle := execTxtEnc_next h
    rw [exec, execTxtEnc_of_le hle] at h
    rw [respond_eq_next h]
    exact .txtEnc _ _ (by simpa using frameLength_le hle)
  | txtDec =>
    obtain ⟨-, ⟨hl, ht⟩ | ⟨hl, ht⟩⟩ := execTxtDec_next h <;> rw [ht]
    · exact .txtDec _ _ (by simpa using ((lineStatus_eq_ok_iff _ _).1 hl).2.2.1)
    · exact .fails _ _ _ hl

end Sys2Proof.Machine
end

