-- ==== Sys2Proof/Laws/PerInstr.lean ====
section
/-! SUPPORT. Statements about every command as syntax, one lemma per constructor. -/

namespace Sys2Proof.Laws

/-- The fields of a command's word: its opcode and operands in their places, `rsv` zero (R61, R64). -/
def EncodedFields.Statement (i : Instr) : Prop :=
  opField (encode i) = i.opcode.code ∧ idxField (encode i) = i.idxOperand ∧ rsvField (encode i) = 0#8 ∧
    immField (encode i) = i.immOperand

/-- The four fields of the encoder's word, said once for every command. -/
theorem encodedFields (i : Instr) : EncodedFields.Statement i := by simp [EncodedFields.Statement, encode]

theorem EncodedFields.crcInit : EncodedFields.Statement .crcInit := encodedFields _
theorem EncodedFields.crcByte (imm : Byte) : EncodedFields.Statement (.crcByte imm) := encodedFields _
theorem EncodedFields.crcRes : EncodedFields.Statement .crcRes := encodedFields _
theorem EncodedFields.binWr (idx imm : Byte) : EncodedFields.Statement (.binWr idx imm) := encodedFields _
theorem EncodedFields.binRd (idx : Byte) : EncodedFields.Statement (.binRd idx) := encodedFields _
theorem EncodedFields.binLen (imm : Byte) : EncodedFields.Statement (.binLen imm) := encodedFields _
theorem EncodedFields.binGetlen : EncodedFields.Statement .binGetlen := encodedFields _
theorem EncodedFields.chrWr (idx imm : Byte) : EncodedFields.Statement (.chrWr idx imm) := encodedFields _
theorem EncodedFields.chrRd (idx : Byte) : EncodedFields.Statement (.chrRd idx) := encodedFields _
theorem EncodedFields.chrLen (imm : Byte) : EncodedFields.Statement (.chrLen imm) := encodedFields _
theorem EncodedFields.chrGetlen : EncodedFields.Statement .chrGetlen := encodedFields _
theorem EncodedFields.txtEnc : EncodedFields.Statement .txtEnc := encodedFields _
theorem EncodedFields.txtDec : EncodedFields.Statement .txtDec := encodedFields _

end Sys2Proof.Laws
end

