-- ==== Sys2Proof/Tests/Slice0.lean ====
section
/-! SUPPORT. Tests: expected values come from spec/ (95_test_vectors.md, by vector name, or the rule named), never from
the model; and for every statement with hypotheses, states and operands that meet them. -/

namespace Sys2Proof.Tests

open Sys2Proof Sys2Proof.Machine

/-! ### Helpers -/

/-- The next state of a result, if it has one. -/
def nextOf : Result → Option State
  | .next t => some t
  | .fault _ => none
  | .refused _ => none

/-- The entries `0 .. k` of a space written, no other. -/
def filled (bytes : List Byte) : Memory := Memory.writeFrom [] 0 bytes

/-- After reset, `BIN` and `BIN_LEN` loaded with a payload. -/
def holding (payload : List Byte) : State :=
  ((State.resetOf true).setBin (filled payload)).setBinLen (lengthOfCount payload.length)

/-- After reset, `CHR` and `CHR_LEN` loaded with a line. -/
def received (accepts : Bool) (line : List Byte) : State :=
  ((State.resetOf accepts).setChr (filled line)).setChrLen (lengthOfCount line.length)

/-- The response to a command word. -/
def answer (w : Word) (s : State) : Option Response := (nextOf (runWord w s)).bind State.outstanding

/-- The first entries of a space, as far as they are written. -/
def firstEntries (m : Memory) (n : Nat) : List (Option Byte) := (List.range n).map m.entry

/-- The payload that txt.dec leaves, with its status. -/
def decoded (s : State) : Option (Option Response × List (Option Byte)) :=
  (nextOf (exec .txtDec s)).map (fun t => (t.outstanding, firstEntries t.bin t.binLen.toNat))

/-- The frame that txt.enc leaves. -/
def encoded (s : State) : Option (List (Option Byte)) :=
  (nextOf (exec .txtEnc s)).map (fun t => firstEntries t.chr t.chrLen.toNat)

theorem next_with {α : Type} {r : Result} {f : State → α} {v : α} (h : (nextOf r).map f = some v) :
    ∃ t, r = .next t ∧ f t = v := by
  match r, h with
  | .next t, h => exact ⟨t, rfl, by simpa [nextOf] using h⟩

theorem is_next {r : Result} (h : (nextOf r).isSome = true) : ∃ t, r = .next t := by
  match r, h with
  | .next t, _ => exact ⟨t, rfl⟩

/-! ### WellFormed: for each check a term it refuses, and terms at its bounds -/

theorem test_wf_arity :
    (AsmLine.plain .crcInit [0]).wellFormed = false ∧ (AsmLine.plain .crcByte []).wellFormed = false ∧
    (AsmLine.plain .binRd [1, 2]).wellFormed = false ∧ (AsmLine.plain .binWr [1]).wellFormed = false := by decide
theorem test_wf_operand : (AsmLine.plain .crcByte [256]).wellFormed = false ∧
    (AsmLine.plain .crcByte [255]).wellFormed = true ∧ (AsmLine.plain .binWr [45, 256]).wellFormed = false ∧
    (AsmLine.plain .binWr [45, 255]).wellFormed = true := by decide
theorem test_wf_sequences :
    (AsmLine.crcSeq [0, 256]).wellFormed = false ∧ (AsmLine.crcStr [300]).wellFormed = false ∧
    (AsmLine.crcOf [256]).wellFormed = false ∧ (AsmLine.crcOf [0, 255]).wellFormed = true := by decide
theorem test_wf_loads_fit : (AsmLine.binLoad (List.replicate 46 0)).wellFormed = false ∧
    (AsmLine.binLoad (List.replicate 45 0)).wellFormed = true ∧
    (AsmLine.binLoads (List.replicate 46 65)).wellFormed = false ∧
    (AsmLine.chrLoad (List.replicate 62 65)).wellFormed = false ∧
    (AsmLine.chrLoad (List.replicate 61 65)).wellFormed = true := by decide
theorem test_wf_load_bytes :
    (AsmLine.binLoad [256]).wellFormed = false ∧ (AsmLine.binLoads [256]).wellFormed = false ∧
    (AsmLine.chrLoad [256]).wellFormed = false ∧ AsmLine.binClear.wellFormed = true := by decide
/-- R154. -/
theorem test_wf_range : (Instr.binWr 44#8 0#8).inRange = true ∧ (Instr.binWr 45#8 0#8).inRange = false ∧
    (Instr.binRd 45#8).inRange = false ∧ (Instr.binLen 45#8).inRange = true ∧ (Instr.binLen 46#8).inRange = false ∧
    (Instr.chrWr 60#8 0#8).inRange = true ∧ (Instr.chrWr 61#8 0#8).inRange = false ∧
    (Instr.chrRd 61#8).inRange = false ∧ (Instr.chrLen 61#8).inRange = true ∧
    (Instr.chrLen 62#8).inRange = false := by decide

/-! ### Decoding: for every command a word written out field by field from R61 and R64 -/

theorem test_decode_crcInit :
    decode (0b00010000#8 ++ 0b00000000#8 ++ 0b00000000#8 ++ 0b00000000#8) = .ok .crcInit := by decide
theorem test_decode_crcByte :
    decode (0b00010001#8 ++ 0b00000000#8 ++ 0b00000000#8 ++ 0b10110001#8) = .ok (.crcByte 177#8) := by decide
theorem test_decode_crcRes :
    decode (0b00010010#8 ++ 0b00000000#8 ++ 0b00000000#8 ++ 0b00000000#8) = .ok .crcRes := by decide
theorem test_decode_binWr :
    decode (0b00100000#8 ++ 0b00101100#8 ++ 0b00000000#8 ++ 0b11111110#8) = .ok (.binWr 44#8 254#8) := by decide
theorem test_decode_binRd :
    decode (0b00100001#8 ++ 0b10000011#8 ++ 0b00000000#8 ++ 0b00000000#8) = .ok (.binRd 131#8) := by decide
theorem test_decode_binLen :
    decode (0b00100010#8 ++ 0b00000000#8 ++ 0b00000000#8 ++ 0b00101101#8) = .ok (.binLen 45#8) := by decide
theorem test_decode_binGetlen :
    decode (0b00100011#8 ++ 0b00000000#8 ++ 0b00000000#8 ++ 0b00000000#8) = .ok .binGetlen := by decide
theorem test_decode_chrWr :
    decode (0b00101000#8 ++ 0b00111100#8 ++ 0b00000000#8 ++ 0b01000001#8) = .ok (.chrWr 60#8 65#8) := by decide
theorem test_decode_chrRd :
    decode (0b00101001#8 ++ 0b00111100#8 ++ 0b00000000#8 ++ 0b00000000#8) = .ok (.chrRd 60#8) := by decide
theorem test_decode_chrLen :
    decode (0b00101010#8 ++ 0b00000000#8 ++ 0b00000000#8 ++ 0b00111101#8) = .ok (.chrLen 61#8) := by decide
theorem test_decode_chrGetlen :
    decode (0b00101011#8 ++ 0b00000000#8 ++ 0b00000000#8 ++ 0b00000000#8) = .ok .chrGetlen := by decide
theorem test_decode_txtEnc :
    decode (0b00110000#8 ++ 0b00000000#8 ++ 0b00000000#8 ++ 0b00000000#8) = .ok .txtEnc := by decide
theorem test_decode_txtDec :
    decode (0b00110001#8 ++ 0b00000000#8 ++ 0b00000000#8 ++ 0b00000000#8) = .ok .txtDec := by decide
/-- R66, and the fields that R61 wants zero: T-CRCCMD-5 to 8, T-ILL-1 to 5, T-BUF-12 and 13. -/
theorem test_decode_refuses :
    [0x00000000#32, 0xFFFFFFFF#32, 0x13000000#32].map decode = List.replicate 3 (.error .reservedOpcode) ∧
    [0x10000001#32, 0x11010031#32, 0x11000100#32, 0x12000001#32, 0x30000100#32, 0x31010000#32, 0x21030001#32,
      0x20C88001#32].map decode = List.replicate 8 (.error .unusedFieldNotZero) := by decide
/-- R64: no two rows select one word, because the opcodes are distinct and every mask covers `op`. -/
theorem test_table_rows_disjoint : (opcodeTable.map (fun row => opField row.pattern)).Nodup ∧
    (∀ row ∈ opcodeTable, opField row.mask = 0xFF#8 ∧ row.pattern &&& row.mask = row.pattern) := by decide
theorem test_decodeTableWord : decodeTableWord 32 0x202C00FF = some (.binWr 44#8 255#8) ∧
    decodeTableWord 32 0x10000001 = none := by decide

/-! ### The CRC unit (95_test_vectors.md section 2) -/

/-- T-STEP-1 to T-STEP-9. -/
theorem test_crc_steps : crcStep8 0#32 0#8 = 0#32 ∧ crcStep8 0#32 1#8 = 0x77073096#32 ∧
    crcStep8 0#32 2#8 = 0xEE0E612C#32 ∧ crcStep8 0#32 0x80#8 = 0xEDB88320#32 ∧ crcStep8 0#32 0xFF#8 = 0x2D02EF8D#32 ∧
    crcStep8 0xFFFFFFFF#32 0#8 = 0x2DFD1072#32 ∧ crcStep8 0xFFFFFFFF#32 0xFF#8 = 0x00FFFFFF#32 ∧
    crcStep8 0xFFFFFFFF#32 0x31#8 = 0x7C231048#32 ∧ crcStep8 0x12345678#32 0xAB#8 = 0x1FC8B738#32 := by decide +kernel
/-- T-CRC-1, 2, 6 and 7. -/
theorem test_crc32 : crc32 [] = 0#32 ∧ crc32 [0x00#8] = 0xD202EF8D#32 ∧
    crc32 [0x61#8, 0x62#8, 0x63#8] = 0x352441C2#32 ∧
    crc32 [0x31#8, 0x32#8, 0x33#8, 0x34#8, 0x35#8, 0x36#8, 0x37#8, 0x38#8, 0x39#8] = 0xCBF43926#32 := by decide +kernel
/-- T-CRCCMD-2. -/
theorem test_crcInit : (nextOf (exec .crcInit ((State.resetOf true).setAcc 0x12345678#32))).map
    (fun t => (t.outstanding, t.acc)) = some (some ⟨.ok, 0#32⟩, 0xFFFFFFFF#32) := by decide
/-- T-CRCCMD-4. -/
theorem test_crcByte : (nextOf (exec (.crcByte 0x00#8) (State.resetOf true))).map
    (fun t => (t.outstanding, t.acc)) = some (some ⟨.ok, 0#32⟩, 0x2DFD1072#32) := by decide +kernel
/-- T-CRCCMD-1 and 3. -/
theorem test_crcRes : answer 0x12000000#32 (State.resetOf true) = some ⟨.ok, 0#32⟩ ∧
    (nextOf (exec .crcRes ((State.resetOf true).setAcc 0x340BC6D9#32))).map (fun t => (t.outstanding, t.acc)) =
      some (some ⟨.ok, 0xCBF43926#32⟩, 0x340BC6D9#32) := by decide

/-! ### The buffers (95_test_vectors.md section 4) -/

/-- T-BUF-3 and 4. -/
theorem test_binWr :
    (nextOf (runWord 0x202C00FF#32 (State.resetOf true))).map (fun t => (t.outstanding, t.bin.entry 44)) =
      some (some ⟨.ok, 0#32⟩, some 0xFF#8) ∧ answer 0x202D0000#32 (State.resetOf true) = some ⟨.range, 0#32⟩ := by decide
/-- R101's example, and T-BUF-5. -/
theorem test_binRd : answer 0x21020000#32 (holding [0x43#8, 0x61#8, 0x74#8]) = some ⟨.ok, 0x74#32⟩ ∧
    answer 0x21FF0000#32 (State.resetOf true) = some ⟨.range, 0#32⟩ := by decide
/-- T-BUF-14. -/
theorem test_binRd_unwritten :
    answer 0x21000000#32 (State.resetOf true) = some ⟨.ok, (Config.draw 0).setWidth 32⟩ := rfl
/-- T-BUF-6 and 7. -/
theorem test_binLen : (nextOf (runWord 0x2200002D#32 (State.resetOf true))).map State.binLen = some 45#6 ∧
    (nextOf (runWord 0x2200002E#32 ((State.resetOf true).setBinLen 7#6))).map (fun t => (t.outstanding, t.binLen)) =
      some (some ⟨.range, 0#32⟩, 7#6) := by decide
/-- T-BUF-1. -/
theorem test_binGetlen : answer 0x23000000#32 (State.resetOf true) = some ⟨.ok, 0#32⟩ ∧
    answer 0x23000000#32 ((State.resetOf true).setBinLen 45#6) = some ⟨.ok, 45#32⟩ := by decide
/-- T-BUF-8 and 9. -/
theorem test_chrWr :
    (nextOf (runWord 0x283C0041#32 (State.resetOf true))).map (fun t => (t.outstanding, t.chr.entry 60)) =
      some (some ⟨.ok, 0#32⟩, some 0x41#8) ∧ answer 0x283D0041#32 (State.resetOf true) = some ⟨.range, 0#32⟩ := by decide
/-- Program P2's `chr.rd 1`, program P4's `chr.rd 61`. -/
theorem test_chrRd : answer 0x29010000#32 (received true [0x23#8, 0x30#8]) = some ⟨.ok, 0x30#32⟩ ∧
    answer 0x293D0000#32 (State.resetOf true) = some ⟨.range, 0#32⟩ := by decide
/-- T-BUF-10 and 11. -/
theorem test_chrLen : (nextOf (runWord 0x2A00003D#32 (State.resetOf true))).map State.chrLen = some 61#6 ∧
    answer 0x2A00003E#32 (State.resetOf true) = some ⟨.range, 0#32⟩ := by decide
/-- T-BUF-2. -/
theorem test_chrGetlen : answer 0x2B000000#32 (State.resetOf true) = some ⟨.ok, 0#32⟩ ∧
    answer 0x2B000000#32 ((State.resetOf true).setChrLen 61#6) = some ⟨.ok, 61#32⟩ := by decide
/-- T-BUF-12, T-BUF-13: ILLEGAL before RANGE. -/
theorem test_illegal_before_range : answer 0x21030001#32 (State.resetOf true) = some ⟨.illegal, 0#32⟩ ∧
    answer 0x20C88001#32 (State.resetOf true) = some ⟨.illegal, 0#32⟩ := by decide

/-! ### The text frame (95_test_vectors.md section 3) -/

/-- T-ENC-11: a partial last triple. -/
theorem test_txtEnc : encoded (holding [0x00#8, 0x10#8, 0x83#8, 0xFF#8]) =
    some ([0x24#8, 0x60#8, 0x21#8, 0x22#8, 0x23#8, 0x5F#8, 0x50#8, 0x60#8, 0x60#8].map some) := by decide +kernel
/-- T-ENC-1 and T-ENC-13: the smallest and the largest frame. -/
theorem test_txtEnc_bounds : encoded (holding []) = some [some 0x60#8] ∧
    encoded (holding (List.replicate 45 0xFF#8)) =
      some (some 0x4D#8 :: List.replicate 60 (some 0x5F#8)) := by decide +kernel
/-- T-DEC-4 and T-DEC-6. -/
theorem test_txtDec : decoded (received true [0x21#8, 0x30#8, 0x50#8, 0x21#8, 0x21#8]) =
      some (some ⟨.ok, 0#32⟩, [some 0x43#8]) ∧
    decoded (received false [0x23#8, 0x30#8, 0x56#8, 0x25#8, 0x54#8]) =
      some (some ⟨.ok, 0#32⟩, [some 0x43#8, some 0x61#8, some 0x74#8]) := by decide +kernel
/-- T-DEC-2, 5, 11, 13, 15, 17 and 18: the statuses, in their order. -/
theorem test_txtDec_statuses :
    [received true [0x20#8], received false [0x20#8], received false [0x21#8, 0x30#8, 0x50#8, 0x20#8, 0x20#8],
      received true [0x4E#8, 0x0D#8, 0x60#8, 0x60#8, 0x60#8], received true [0x4E#8, 0x60#8, 0x60#8, 0x60#8, 0x60#8],
      received true [], received true [0x23#8, 0x30#8, 0x56#8, 0x25#8, 0x54#8, 0x60#8], received true [0x4D#8]].map
        (fun s => answer 0x31000000#32 s) =
      [Status.ok, .decChar, .decChar, .decChar, .decCount, .decLength, .decLength, .decLength].map
        (fun st => some ⟨st, 0#32⟩) := by decide +kernel

/-! ### Steps, reset and the assembler -/

theorem test_withFetchWord :
    (nextOf (step (State.reset.withFetchWord 32 0x202C00FF))).map (fun t => (t.bin.entry 44, t.outstanding, t.script)) =
      some (some 0xFF#8, some ⟨.ok, 0#32⟩, []) := by decide
/-- R182 and R12: two acts of the host make one transaction. -/
theorem test_transaction :
    (nextOf (runSteps 2 ((State.resetOf true).setScript (transactions [0x23000000#32])))).map
      (fun t => (t.received, t.script)) = some ([⟨.ok, 0#32⟩], []) := by decide
/-- R181: the response outstanding when reset is asserted is lost. -/
theorem test_reset_loses_response :
    (nextOf (runSteps 2 ((State.resetOf true).setScript [.command 0x23000000#32, .assertReset]))).map
      (fun t => (t.outstanding, t.received, t.inReset)) = some (none, [], true) := by decide
/-- R67's example, R69's words and a comment. -/
theorem test_assemble_plain : assembleText "bin.wr 45, 1" = some [0x202D0001#32] ∧
    assembleText "  crc.byte 0x31 ; a comment" = some [0x11000031#32] ∧
    assembleText "crc.byte '1'" = some [0x11000031#32] ∧ assembleText "crc.byte 256" = none ∧
    assembleText "CRC.INIT" = none ∧ assembleText "; nothing" = some [] := by decide +kernel
/-- R68. -/
theorem test_assemble_pseudo : assembleText "crc.of 0x31, 50" = some [0x10000000#32, 0x11000031#32, 0x11000032#32,
      0x12000000#32] ∧
    assembleText "bin.loads \"A\\x00\"" = some [0x20000041#32, 0x20010000#32, 0x22000002#32] ∧
    assembleText "chr.load \"#0\"" = some [0x28000023#32, 0x28010030#32, 0x2A000002#32] ∧
    assembleText "bin.load" = some [0x22000000#32] ∧ assembleText "bin.clear" = some [0x22000000#32] := by
  decide +kernel

/-! ### Hypotheses that are met -/

/-- A word of an opcode with a nonzero unused field, one for each field its format leaves unused. -/
theorem witness_unused_fields :
    (opField 0x10000001#32 = 0x10#8 ∧ UnusedFieldSet .z 0x10000001#32) ∧
    (opField 0x12000100#32 = 0x12#8 ∧ UnusedFieldSet .z 0x12000100#32) ∧
    (opField 0x23800000#32 = 0x23#8 ∧ UnusedFieldSet .z 0x23800000#32) ∧
    (opField 0x2B000080#32 = 0x2B#8 ∧ UnusedFieldSet .z 0x2B000080#32) ∧
    (opField 0x30000100#32 = 0x30#8 ∧ UnusedFieldSet .z 0x30000100#32) ∧
    (opField 0x31010000#32 = 0x31#8 ∧ UnusedFieldSet .z 0x31010000#32) ∧
    (opField 0x11010031#32 = 0x11#8 ∧ UnusedFieldSet .b 0x11010031#32) ∧
    (opField 0x2200012D#32 = 0x22#8 ∧ UnusedFieldSet .b 0x2200012D#32) ∧
    (opField 0x2A80003D#32 = 0x2A#8 ∧ UnusedFieldSet .b 0x2A80003D#32) ∧
    (opField 0x21030001#32 = 0x21#8 ∧ UnusedFieldSet .i 0x21030001#32) ∧
    (opField 0x293C8000#32 = 0x29#8 ∧ UnusedFieldSet .i 0x293C8000#32) ∧
    (opField 0x20C88001#32 = 0x20#8 ∧ UnusedFieldSet .ib 0x20C88001#32) ∧
    (opField 0x283C0141#32 = 0x28#8 ∧ UnusedFieldSet .ib 0x283C0141#32) := by
  simp only [UnusedFieldSet]; decide

theorem witness_EncodeInvertsDecode : decode 0x202C00FF#32 = .ok (.binWr 44#8 0xFF#8) := by decide
theorem witness_EveryWordDecodesOneWay :
    (∃ row ∈ opcodeTable, row.selects 0x28FF00FF#32 = true) ∧ (∀ row ∈ opcodeTable, row.selects 0x10000001#32 = false) ∧
    isReservedOp (opField 0x14000000#32) = true := by decide
theorem witness_OperandsAreTheFieldsUntransformed : decode 0x28FF0080#32 = .ok (.chrWr 0xFF#8 0x80#8) := by decide
theorem witness_ReservedOpcodesAreIllegal :
    opField 0x13000000#32 ∉ [0x10#8, 0x11#8, 0x12#8, 0x20#8, 0x21#8, 0x22#8, 0x23#8, 0x28#8, 0x29#8, 0x2A#8, 0x2B#8,
      0x30#8, 0x31#8] := by decide
theorem witness_CrcByteFoldsOneByte : crcStep8 0#32 0x00#8 = 0#32 := by decide
theorem witness_CrcResAnswersTheComplement : (State.resetOf true).acc = 0xFFFFFFFF#32 ∧
    ((State.resetOf true).setAcc 0x340BC6D9#32).acc =
      [0x31#8, 0x32#8, 0x33#8, 0x34#8, 0x35#8, 0x36#8, 0x37#8, 0x38#8, 0x39#8].foldl crcStep8 0xFFFFFFFF#32 := by
  decide +kernel
theorem witness_CrcOfEveryByteSequence :
    ∃ (s : State) (rest : List HostEvent), s.ready = true ∧
      s.script = transactions (0x10000000#32 :: [0x61#8].map (fun b => 0x11000000#32 ||| b.setWidth 32)
        ++ [0x12000000#32]) ++ rest :=
  ⟨(State.resetOf false).setScript _, [.assertReset], by decide, rfl⟩
theorem witness_OnlyCrcCommandsReadTheAccumulator :
    ∃ t, Instr.txtEnc ≠ .crcRes ∧ (∀ imm, Instr.txtEnc ≠ .crcByte imm) ∧ exec .txtEnc (holding [0x43#8]) = .next t :=
  (is_next (by decide +kernel)).imp (fun _ h => ⟨by decide, nofun, h⟩)

/-- Indices 0, 44, 45, 60 and 61, lengths 45, 46, 61 and 62: where the clauses of R100 to R106 meet. -/
theorem witness_buffer_bounds :
    ((0#8).toNat < 45 ∧ (44#8).toNat < 45 ∧ 45 ≤ (45#8).toNat ∧ (60#8).toNat < 61 ∧ 61 ≤ (61#8).toNat) ∧
    ((45#8).toNat ≤ 45 ∧ 45 < (46#8).toNat ∧ (61#8).toNat ≤ 61 ∧ 61 < (62#8).toNat ∧ (0#8).toNat ≤ 61) := by decide
theorem witness_BinRdAnswersOneEntry :
    ((44#8).toNat < 45 ∧ (holding (List.replicate 45 0x07#8)).bin.entry (44#8).toNat = some 0x07#8) ∧
    ((44#8).toNat < 45 ∧ (State.resetOf true).bin.entry (44#8).toNat = none) := by decide
theorem witness_ChrRdAnswersOneEntry :
    ((60#8).toNat < 61 ∧ ((State.resetOf true).setChr [(60, 0x41#8)]).chr.entry (60#8).toNat = some 0x41#8) ∧
    ((60#8).toNat < 61 ∧ (State.resetOf true).chr.entry (60#8).toNat = none) := by decide
/-- After a txt.dec that succeeds, and after one that fails. -/
theorem witness_BinGetlenAnswersThePayloadLength :
    (∃ t, exec .txtDec (received true [0x21#8, 0x30#8, 0x50#8, 0x60#8, 0x60#8]) = .next t ∧
      t.outstanding = some ⟨.ok, 0#32⟩) ∧
    (∃ t, exec .txtDec (received true [0x1F#8]) = .next t ∧ t.outstanding = some ⟨.decChar, 0#32⟩) :=
  ⟨next_with (by decide +kernel), next_with (by decide +kernel)⟩
theorem witness_ChrGetlenAnswersTheLineLength : ∃ t, exec .txtEnc (holding [0x43#8]) = .next t :=
  is_next (by decide +kernel)
theorem witness_ValidCharactersAndTheirInverse :
    (validChar true 0x20#8 = true ∧ validChar false 0x21#8 = true ∧ validChar false 0x60#8 = true) ∧
    (received true [0x60#8, 0x61#8]).chrLen.toNat ≤ 61 ∧ 1 < (received true [0x60#8, 0x61#8]).chrLen.toNat ∧
    validChar (received true [0x60#8, 0x61#8]).acceptSpace
      (readValue (received true [0x60#8, 0x61#8]).chr (received true [0x60#8, 0x61#8]).draws 1) = false := by
  decide +kernel
theorem witness_TxtEncWritesTheFrame :
    ∃ (s : State) (n : Nat) (p : Nat → Byte), s.binLen.toNat = n ∧ n ≤ 45 ∧ n = 45 ∧
      (∀ i, p i = if i < n then readValue s.bin s.draws i else 0x00#8) ∧ 14 < (n + 2) / 3 ∧ (1 ≤ n) :=
  ⟨(State.resetOf true).setBinLen 45#6, 45, _, rfl, by decide, rfl, fun _ => rfl, by decide, by decide⟩

/-- The hypotheses of R125's statement before its clauses. -/
def DecInput (s : State) (m count : Nat) (c : Nat → Byte) : Prop :=
  s.chrLen.toNat = m ∧ m ≤ 61 ∧ (∀ j, c j = readValue s.chr s.draws j) ∧ count = (decChar (c 0)).toNat

theorem decInput {s : State} {m count : Nat} (hm : s.chrLen.toNat = m) (h : m ≤ 61)
    (hc : (decChar (readValue s.chr s.draws 0)).toNat = count) : DecInput s m count (readValue s.chr s.draws) :=
  ⟨hm, h, fun _ => rfl, hc.symm⟩

theorem witness_TxtDec_empty : ∃ count, DecInput (received true []) 0 count (readValue [] 0) :=
  ⟨_, rfl, by decide, fun _ => rfl, rfl⟩
theorem witness_TxtDec_char : ∃ c, DecInput (received true [0x1F#8]) 1 63 c ∧ 1 ≠ 0 ∧
    ∃ j < 1, validChar true (c j) = false :=
  ⟨_, decInput rfl (by decide) (by decide +kernel), by decide, 0, by decide, by decide +kernel⟩
theorem witness_TxtDec_count : ∃ c, DecInput (received true [0x4E#8]) 1 46 c ∧ 1 ≠ 0 ∧
    (∀ j < 1, validChar true (c j) = true) ∧ 45 < 46 :=
  ⟨_, decInput rfl (by decide) (by decide +kernel), by decide, by decide +kernel, by decide⟩
theorem witness_TxtDec_length : ∃ c, DecInput (received true [0x4D#8]) 1 45 c ∧ 1 ≠ 0 ∧
    (∀ j < 1, validChar true (c j) = true) ∧ 45 ≤ 45 ∧ 1 ≠ 1 + 4 * ((45 + 2) / 3) :=
  ⟨_, decInput rfl (by decide) (by decide +kernel), by decide, by decide +kernel, by decide, by decide⟩
/-- The largest line and the smallest: counts 45 and 0. -/
theorem witness_TxtDec_ok :
    (∃ c, DecInput (received true (0x4D#8 :: List.replicate 60 0x5F#8)) 61 45 c ∧
      (∀ j < 61, validChar true (c j) = true) ∧ 45 ≤ 45 ∧ 61 = 1 + 4 * ((45 + 2) / 3)) ∧
    (∃ c, DecInput (received true [0x60#8]) 1 0 c ∧
      (∀ j < 1, validChar true (c j) = true) ∧ 0 ≤ 45 ∧ 1 = 1 + 4 * ((0 + 2) / 3)) :=
  ⟨⟨_, decInput (by decide +kernel) (by decide) (by decide +kernel), by decide +kernel, by decide, by decide⟩,
    ⟨_, decInput rfl (by decide) (by decide +kernel), by decide +kernel, by decide, by decide⟩⟩

theorem witness_EncodeThenDecodeRestoresThePayload :
    (holding (List.replicate 45 0xFF#8)).binLen.toNat ≤ 45 ∧
    (∀ j < (holding (List.replicate 45 0xFF#8)).binLen.toNat,
      ((holding (List.replicate 45 0xFF#8)).bin.entry j).isSome = true) := by decide +kernel
/-- The line of one byte `!0P` with two backticks: its last two characters carry pad bits only. -/
theorem witness_DecodeIgnoresPadBits :
    (received true [0x21#8, 0x30#8, 0x50#8, 0x60#8, 0x60#8]).chrLen.toNat ≤ 61 ∧
    (∀ j < (received true [0x21#8, 0x30#8, 0x50#8, 0x60#8, 0x60#8]).chrLen.toNat,
      ((received true [0x21#8, 0x30#8, 0x50#8, 0x60#8, 0x60#8]).chr.entry j).isSome = true) ∧
    (∃ t, exec .txtDec (received true [0x21#8, 0x30#8, 0x50#8, 0x60#8, 0x60#8]) = .next t ∧
      (t.outstanding, t.binLen.toNat % 3) = (some ⟨.ok, 0#32⟩, 1)) ∧
    validChar true 0x21#8 = true :=
  ⟨by decide, by decide +kernel, next_with (by decide +kernel), by decide⟩
theorem witness_DecodeTakesSpaces :
    (received true [0x60#8]).acceptSpace = true ∧ (received true [0x60#8]).chrLen.toNat ≤ 61 ∧
    0 < (received true [0x60#8]).chrLen.toNat ∧ (received true [0x60#8]).chr.entry 0 = some 0x60#8 ∧
    (∃ t, exec .txtDec (received true [0x60#8]) = .next t ∧ t.outstanding = some ⟨.ok, 0#32⟩) ∧
    (∃ t, exec .txtEnc (holding []) = .next t ∧ t.chrLen = 1#6) :=
  ⟨rfl, by decide, by decide, by decide, next_with (by decide +kernel), next_with (by decide +kernel)⟩
theorem witness_AcceptSpaceOnlyDecidesSpaces :
    (Instr.txtDec = .txtDec → ∀ j < (received true [0x60#8]).chrLen.toNat,
      readValue (received true [0x60#8]).chr (received true [0x60#8]).draws j ≠ 0x20#8) ∧
    ∃ t, exec .txtDec (received true [0x60#8]) = .next t :=
  ⟨by decide +kernel, is_next (by decide +kernel)⟩

/-- A response of each status. -/
theorem witness_statuses :
    [(0x23000000#32, State.resetOf true), (0x00000000#32, State.resetOf true), (0x21FF0000#32, State.resetOf true),
      (0x31000000#32, received true [0x1F#8]), (0x31000000#32, received true [0x4E#8]),
      (0x31000000#32, received true [])].map (fun x => (answer x.1 x.2).map Response.status) =
    [some .ok, some .illegal, some .range, some .decChar, some .decCount, some .decLength] := by decide +kernel
theorem witness_StatusCodesAndTheirCauses : ∃ t, runWord 0x31000000#32 (received true [0x4E#8]) = .next t ∧
    t.outstanding = some ⟨.decCount, 0#32⟩ := next_with (by decide +kernel)
theorem witness_OneStatusByPriority : ∃ c, (received true [0x4E#8, 0x0D#8]).binLen.toNat ≤ 45 ∧
    DecInput (received true [0x4E#8, 0x0D#8]) 2 46 c ∧ decode 0x31000000#32 = .ok .txtDec :=
  ⟨_, by decide, decInput rfl (by decide) (by decide +kernel), by decide⟩
theorem witness_FailingCommandsWriteNothing : ∃ t, runWord 0x20C88001#32 (holding [0x43#8]) = .next t ∧
    t.outstanding = some ⟨.illegal, 0#32⟩ := next_with (by decide)
theorem witness_IllegalExactlyForUnselectedWords :
    (∀ row ∈ opcodeTable, row.selects 0x11000100#32 = false) ∧ opField 0x11000100#32 = Opcode.crcByte.code ∧
    UnusedFieldSet Opcode.crcByte.format 0x11000100#32 := ⟨by decide, by decide, Or.inr (by decide)⟩
theorem witness_RangeExactlyOutsideTheBuffers : ∃ t, exec (.chrLen 62#8) (State.resetOf true) = .next t ∧
    t.outstanding = some ⟨.range, 0#32⟩ := next_with (by decide)
theorem witness_ResponseDataOfEveryCommand : ∃ t, exec (.binRd 0#8) (holding [0x43#8]) = .next t ∧
    t.outstanding = some ⟨.ok, 0x43#32⟩ := next_with (by decide)
theorem witness_NoFailureIsSticky : ∃ t, runWord 0x21FF0000#32 (holding [0x43#8]) = .next t ∧
    (t.outstanding, t.draws) = (some ⟨.range, 0#32⟩, (holding [0x43#8]).draws) := next_with (by decide)
theorem witness_EachStateIsWrittenByItsCommandsOnly :
    ∃ t, exec (.crcByte 0x31#8) (State.resetOf true) = .next t ∧ (t.acc != (State.resetOf true).acc) = true :=
  next_with (by decide +kernel)
theorem witness_OnlyResetClearsWrittenMarks :
    (∃ t, runWord 0x202C00FF#32 (holding [0x43#8]) = .next t ∧ ((holding [0x43#8]).bin.entry 0).isSome = true) ∧
    (∃ t, step (holding [0x43#8]) = .next t ∧ ∀ rest, (holding [0x43#8]).script ≠ .assertReset :: rest) :=
  ⟨(is_next (by decide)).imp (fun _ h => ⟨h, by decide⟩), (is_next (by decide)).imp (fun _ h => ⟨h, nofun⟩)⟩
theorem witness_UnwrittenReadsAreSeparateDraws :
    ((44#8).toNat < 45 ∧ (State.resetOf true).bin.entry (44#8).toNat = none) ∧
    ((60#8).toNat < 61 ∧ (State.resetOf true).chr.entry (60#8).toNat = none) := by decide
theorem holding_inv : (holding [0x43#8]).Inv := ⟨by decide, by decide, by decide, by decide⟩
theorem witness_ReadsAndWritesAreIdempotent :
    (∃ t, exec (.binRd 0#8) (holding [0x43#8]) = .next t ∧ (Instr.binRd 0#8).opcode ∈
      [Opcode.binRd, .chrRd, .binGetlen, .chrGetlen, .crcRes] ∧ ((holding [0x43#8]).bin.entry 0).isSome = true) ∧
    (∃ t, exec (.binWr 45#8 0#8) (holding [0x43#8]) = .next t ∧
      (Instr.binWr 45#8 0#8).opcode ∈ [Opcode.binWr, .chrWr, .binLen, .chrLen, .crcInit]) ∧
    (∃ t, (holding [0x43#8]).Inv ∧ (∀ j < (holding [0x43#8]).binLen.toNat, ((holding [0x43#8]).bin.entry j).isSome = true) ∧
      exec .txtEnc (holding [0x43#8]) = .next t) ∧
    (∃ t, (holding [0x43#8]).Inv ∧ (∀ j < (holding [0x43#8]).chrLen.toNat, ((holding [0x43#8]).chr.entry j).isSome = true) ∧
      exec .txtDec (holding [0x43#8]) = .next t) :=
  ⟨(is_next (by decide)).imp (fun _ h => ⟨h, by decide, by decide⟩),
    (is_next (by decide)).imp (fun _ h => ⟨h, by decide⟩),
    (is_next (by decide +kernel)).imp (fun _ h => ⟨holding_inv, by decide, h⟩),
    (is_next (by decide +kernel)).imp (fun _ h => ⟨holding_inv, by decide, h⟩)⟩
theorem witness_ThreePairsSeeTheCommandBefore : (holding [0x43#8]).binLen.toNat ≤ 45 ∧
    ∃ t, exec .txtDec (received true [0x21#8, 0x30#8, 0x50#8, 0x60#8, 0x60#8]) = .next t ∧
      (t.outstanding, t.binLen.toNat) = (some ⟨.ok, 0#32⟩, 1) := ⟨by decide, next_with (by decide +kernel)⟩

/-! Steps and the host -/

/-- A state whose host's next acts are given. -/
def acting (es : List HostEvent) : State := (holding [0x43#8]).setScript es

theorem acting_inv (es : List HostEvent) : (acting es).Inv :=
  ⟨holding_inv.1, holding_inv.2, holding_inv.3, holding_inv.4⟩

theorem witness_StepRunsTheDecodedCommand : (acting [.command 0x21000000#32]).ready = true ∧
    (acting [.command 0x21000000#32]).script = .command 0x21000000#32 :: [] ∧
    decode 0x21000000#32 = .ok (.binRd 0#8) := by decide
theorem witness_PlacedWordRunsNext : decodeTableWord 32 0x31000000 = some .txtDec := by decide
theorem witness_TransactionsAreSequential :
    ∃ t, (acting (transactions [0x30000000#32, 0x31000000#32] ++ [])).ready = true ∧
      (acting (transactions [0x30000000#32, 0x31000000#32] ++ [])).script =
        transactions (0x30000000#32 :: [0x31000000#32]) ++ [] ∧
      runWord 0x30000000#32 ((acting (transactions [0x30000000#32, 0x31000000#32] ++ [])).setScript
        (transactions [0x31000000#32] ++ [])) = .next t :=
  (is_next (by decide +kernel)).imp (fun _ h => ⟨by decide, rfl, h⟩)
theorem witness_HostDutiesHaveNoStep :
    ((acting [.command 0#32]).setInReset true).inReset = true ∧
    ((acting [.command 0#32]).setOutstanding (some ⟨.ok, 0#32⟩)).inReset = false ∧
    ((acting [.command 0#32]).setOutstanding (some ⟨.ok, 0#32⟩)).outstanding = some ⟨.ok, 0#32⟩ ∧
    ((acting [.command 0#32]).setInReset true).script = .command 0#32 :: [] ∧
    ((acting [.command 0#32]).setOutstanding (some ⟨.ok, 0#32⟩)).script = .command 0#32 :: [] ∧
    (acting [.receive]).script = .receive :: [] ∧ (acting [.receive]).outstanding = none := by decide
theorem witness_ResetLeavesTheResetState : (acting [.assertReset]).script = .assertReset :: [] := rfl
theorem witness_ReadyAsSoonAsResetIsReleased :
    (acting [.assertReset, .releaseReset]).script = .assertReset :: .releaseReset :: [] := rfl
theorem witness_EveryCommandIsAnswered : (acting [.command 0x31000000#32]).Inv ∧
    (acting [.command 0x31000000#32]).ready = true ∧
    (acting [.command 0x31000000#32]).script = .command 0x31000000#32 :: [] ∧
    hostKeepsDuties (acting [.command 0x31000000#32]) = true := ⟨acting_inv _, by decide, rfl, by decide⟩
theorem witness_EveryStepKeepsTheLengthsLegal : (acting [.command 0x30000000#32]).Inv ∧
    ∃ t, step (acting [.command 0x30000000#32]) = .next t := ⟨acting_inv _, is_next (by decide +kernel)⟩
/-- A reached state that no reset state is: `BIN_LEN` is 45. -/
theorem witness_ReachableLengthsAreLegal : ∃ s, Reachable s ∧ s.binLen = 45#6 :=
  let ⟨t, h, hl⟩ := next_with (r := step ((State.resetOf true).setScript [.command 0x2200002D#32]))
    (f := State.binLen) (v := 45#6) (by decide)
  ⟨t, .step (.reset true _) h, hl⟩
theorem witness_AssemblerChecksItsOperands : assembleLine (.plain .binWr [44, 255]) = some [0x202C00FF#32] ∧
    Opcode.binWr.format = .ib ∧ Opcode.binRd.format = .i ∧ Opcode.binLen.format = .b := by decide
theorem witness_PseudoInstructionsExpand : (∀ b ∈ List.replicate 45 255, b < 256) ∧
    (List.replicate 45 255).length ≤ 45 ∧ (List.replicate 61 255).length ≤ 61 := by decide
theorem witness_LoadsFillTheBuffers :
    (∃ s : State, assembleLine (.binLoad [0x43]) = some [0x20000043#32, 0x22000001#32] ∧ s.ready = true ∧
      s.script = transactions [0x20000043#32, 0x22000001#32] ++ []) ∧
    (∃ s : State, assembleLine (.chrLoad [0x60]) = some [0x28000060#32, 0x2A000001#32] ∧ s.ready = true ∧
      s.script = transactions [0x28000060#32, 0x2A000001#32] ++ []) :=
  ⟨⟨acting _, by decide +kernel, by decide, rfl⟩, ⟨acting _, by decide +kernel, by decide, rfl⟩⟩

end Sys2Proof.Tests
end

section
/-! PROOFS. The scope of the model (00_scope.md): a step runs the command its word decodes to, every command of a
legal state is answered, and `ACCEPT_SPACE` decides nothing but whether txt.dec takes a space. -/

namespace Sys2Proof.Machine

/-! ### The word that runs -/

/-- The table's decoder gives the command that the word of the table decodes to. -/
theorem decode_tableWord_of_decodeTableWord {nbits w : Nat} {i : Instr} (h : decodeTableWord nbits w = some i) :
    decode (tableWord nbits w) = .ok i := by
  unfold decodeTableWord at h
  split at h
  case h_1 j hj => rw [hj, Option.some.inj h]
  case h_2 => cases h

/-- A placed word runs in the state in which an outstanding response is received and reset is released. -/
theorem step_withFetchWord (s : State) (nbits w : Nat) :
    step (s.withFetchWord nbits w) = runWord (tableWord nbits w) ((deliver s).setInReset false) :=
  step_of_command (s := s.withFetchWord nbits w) (rest := s.script) rfl rfl

/-- Settles O41: the step runs the word, and the word runs the command it decodes to. -/
theorem stepRunsTheDecodedCommand : Obligations.StepRunsTheDecodedCommand := by
  intro s w i rest hready hscript hdecode
  rw [step_of_command hscript hready, runWord_of_ok _ hdecode]

/-- Settles O42: the placing makes the state ready and the word the next of its script. -/
theorem placedWordRunsNext : Obligations.PlacedWordRunsNext := by
  intro s nbits w
  refine ⟨step_withFetchWord s nbits w, fun i hi => ?_⟩
  rw [step_withFetchWord, runWord_of_ok _ (decode_tableWord_of_decodeTableWord hi)]

/-! ### Every command is answered -/

/-- A range check ends by `RANGE` or goes on: it answers when what it goes on with does. -/
theorem unlessRange_total (st : Status) (s : State) {go : Result} (h : ∃ t, go = .next t) :
    ∃ t, unlessRange st s go = .next t := by
  cases st with
  | ok => exact h
  | illegal | range | decChar | decCount | decLength => exact ⟨_, rfl⟩

theorem execTxtDec_total {s : State} (h : s.chrLen.toNat ≤ 61) : ∃ t, execTxtDec s = .next t := by
  by_cases hl : lineStatus s.acceptSpace (lineRead s).1 = .ok
  · exact ⟨_, execTxtDec_of_ok h hl⟩
  · exact ⟨_, execTxtDec_of_ne_ok h hl⟩

/-- Every command has a next state where both lengths are legal (R28): only txt.enc and txt.dec look at them. -/
theorem exec_total (i : Instr) {s : State} (hbin : s.binLen.toNat ≤ 45) (hchr : s.chrLen.toNat ≤ 61) :
    ∃ t, exec i s = .next t := by
  cases i with
  | crcInit | crcByte | crcRes | binGetlen | chrGetlen => exact ⟨_, rfl⟩
  | binWr | binRd | binLen | chrWr | chrRd | chrLen => exact unlessRange_total _ s ⟨_, rfl⟩
  | txtEnc => exact ⟨_, execTxtEnc_of_le hbin⟩
  | txtDec => exact execTxtDec_total hchr

theorem runWord_total (w : Word) {s : State} (hbin : s.binLen.toNat ≤ 45) (hchr : s.chrLen.toNat ≤ 61) :
    ∃ t, runWord w s = .next t := by
  cases hd : decode w with
  | ok i => rw [runWord_of_ok s hd]; exact exec_total i hbin hchr
  | error e => exact ⟨_, runWord_of_error s hd⟩

/-- Every effect leaves a response and the host's script. -/
theorem Effect.answers {s t : State} {i : Instr} (h : Effect s i t) :
    (∃ r, t.outstanding = some r) ∧ t.script = s.script := by
  cases h <;> exact ⟨⟨_, rfl⟩, rfl⟩

/-- A word that runs leaves a response and the host's script (R6, R63). -/
theorem runWord_answers {w : Word} {s t : State} (h : runWord w s = .next t) :
    (∃ r, t.outstanding = some r) ∧ t.script = s.script := by
  cases hd : decode w with
  | ok i => exact (exec_effect (runWord_of_ok s hd ▸ h)).answers
  | error e =>
    rw [runWord_of_error s hd] at h
    rw [respond_eq_next h]
    exact ⟨⟨_, rfl⟩, rfl⟩

/-- A command of a ready state with legal lengths is answered in its step. -/
theorem step_answers_command {s : State} {w : Word} {rest : List HostEvent} (hinv : s.Inv) (hready : s.ready = true)
    (hscript : s.script = .command w :: rest) :
    ∃ t r, step s = .next t ∧ t.outstanding = some r ∧ t.script = rest := by
  obtain ⟨t, ht⟩ := runWord_total w (s := s.setScript rest) hinv.binLen_le hinv.chrLen_le
  obtain ⟨⟨r, hr⟩, hs⟩ := runWord_answers ht
  exact ⟨t, r, by rw [step_of_command hscript hready, ht], hr, hs⟩

/-- No act of a host that keeps its duties is stuck in a state that meets the invariant (R186). -/
theorem safeStep_of_hostKeepsDuties {s : State} (hinv : s.Inv) (hduty : hostKeepsDuties s = true) : SafeStep s := by
  cases hs : s.script with
  | nil => exact ⟨_, step_of_idle hs⟩
  | cons e rest =>
    rw [hostKeepsDuties, hs] at hduty
    cases e with
    | command w =>
      obtain ⟨t, -, ht, -, -⟩ := step_answers_command hinv hduty hs
      exact ⟨t, ht⟩
    | receive =>
      obtain ⟨r, hr⟩ := Option.isSome_iff_exists.1 hduty
      exact ⟨_, step_of_receive hs hr⟩
    | assertReset => exact ⟨_, step_of_assertReset hs⟩
    | releaseReset => exact ⟨_, step_of_releaseReset hs⟩

/-- Settles O47: every command has a next state where the lengths are legal, and its effect holds a response. -/
theorem everyCommandIsAnswered : Obligations.EveryCommandIsAnswered :=
  ⟨fun _ _ _ hinv hready hscript => step_answers_command hinv hready hscript,
    fun _ hinv hduty => safeStep_of_hostKeepsDuties hinv hduty⟩

/-! ### `ACCEPT_SPACE` -/

/-- `ACCEPT_SPACE` has no part in the status of a line without a space (R121, R125). -/
theorem lineStatus_of_no_space (b b' : Bool) {line : List Byte} (h : ∀ c ∈ line, c ≠ 0x20#8) :
    lineStatus b line = lineStatus b' line := by
  have hany : (line.any fun c => !validChar b c) = line.any fun c => !validChar b' c := by
    rw [Bool.eq_iff_iff, List.any_eq_true, List.any_eq_true]
    exact exists_congr fun c => and_congr_right fun hc => by rw [validChar_of_ne_space b b' (h c hc)]
  unfold lineStatus
  rw [hany]

/-- The line holds no space when no read of an entry below `CHR_LEN` gives one. -/
theorem ne_space_of_mem_lineRead {s : State} (h : ∀ j < s.chrLen.toNat, readValue s.chr s.draws j ≠ 0x20#8) :
    ∀ c ∈ (lineRead s).1, c ≠ 0x20#8 := by
  intro c hc
  rw [lineRead_eq] at hc
  obtain ⟨j, hj, rfl⟩ := List.mem_map.1 hc
  exact h j (List.mem_range.1 hj)

/-! A command answers the same with another `ACCEPT_SPACE` when its next state differs in that parameter only. -/

theorem respond_of_acceptSpace {st : Status} {data : Word} {s t : State} (b : Bool) (h : respond st data s = .next t) :
    respond st data { s with acceptSpace := b } = .next { t with acceptSpace := b } := by
  rw [respond_eq_next h]; rfl

theorem unlessRange_of_acceptSpace {st : Status} {s t : State} {go go' : Result} (b : Bool)
    (hgo : go = .next t → go' = .next { t with acceptSpace := b }) (h : unlessRange st s go = .next t) :
    unlessRange st { s with acceptSpace := b } go' = .next { t with acceptSpace := b } := by
  cases st with
  | ok => exact hgo h
  | illegal | range | decChar | decCount | decLength => exact respond_of_acceptSpace b h

theorem execTxtEnc_of_acceptSpace {s t : State} (b : Bool) (h : execTxtEnc s = .next t) :
    execTxtEnc { s with acceptSpace := b } = .next { t with acceptSpace := b } := by
  have hle := execTxtEnc_next h
  rw [execTxtEnc_of_le hle] at h
  rw [execTxtEnc_of_le (s := { s with acceptSpace := b }) hle]
  exact respond_of_acceptSpace b h

/-- The line that txt.dec reads does not depend on `ACCEPT_SPACE`, so without a space neither does its status. -/
theorem execTxtDec_of_acceptSpace {s t : State} (b : Bool)
    (hsp : ∀ j < s.chrLen.toNat, readValue s.chr s.draws j ≠ 0x20#8) (h : execTxtDec s = .next t) :
    execTxtDec { s with acceptSpace := b } = .next { t with acceptSpace := b } := by
  have hst : lineStatus b (lineRead s).1 = lineStatus s.acceptSpace (lineRead s).1 :=
    lineStatus_of_no_space _ _ (ne_space_of_mem_lineRead hsp)
  obtain ⟨hle, ⟨hok, rfl⟩ | ⟨hne, rfl⟩⟩ := execTxtDec_next h
  · exact execTxtDec_of_ok (s := { s with acceptSpace := b }) hle (hst.trans hok)
  · rw [← hst] at hne ⊢
    exact execTxtDec_of_ne_ok (s := { s with acceptSpace := b }) hle hne

/-- Settles O28: only txt.dec looks at `ACCEPT_SPACE`, and only through the status of its line. -/
theorem acceptSpaceOnlyDecidesSpaces : Obligations.AcceptSpaceOnlyDecidesSpaces := by
  intro i s t b hsp h
  cases i with
  | crcInit | crcByte | crcRes | binGetlen | chrGetlen => exact respond_of_acceptSpace b h
  | binWr | binRd | binLen | chrWr | chrRd | chrLen =>
    exact unlessRange_of_acceptSpace b (respond_of_acceptSpace b) h
  | txtEnc => exact execTxtEnc_of_acceptSpace b h
  | txtDec => exact execTxtDec_of_acceptSpace b (hsp rfl) h

end Sys2Proof.Machine
end

section
/-! PROOFS. The state of the block (10_state.md): what every step keeps, which command writes which piece of it,
what nothing but reset clears, and that no command but crc.byte and crc.res depends on `ACC`. -/

namespace Sys2Proof.Machine

/-! ### The lengths and the buffers stay legal -/

/-- All that running a word to a next state can be: an effect of the command it decodes to, or `ILLEGAL` (R65). -/
theorem runWord_cases {w : Word} {s t : State} (h : runWord w s = .next t) :
    (∃ i, decode w = .ok i ∧ Effect s i t) ∨
    (∃ e, decode w = .error e ∧ t = s.setOutstanding (some ⟨.illegal, 0#32⟩)) := by
  cases hd : decode w with
  | ok i => exact .inl ⟨i, rfl, exec_effect (runWord_of_ok s hd ▸ h)⟩
  | error e => exact .inr ⟨e, rfl, respond_eq_next ((runWord_of_error s hd).symm.trans h)⟩

/-- Every effect keeps the invariant: what it writes is within the bounds of its case. -/
theorem Effect.inv {s t : State} {i : Instr} (h : Effect s i t) (hinv : s.Inv) : t.Inv := by
  obtain ⟨hbinLen, hchrLen, hbin, hchr⟩ := hinv
  cases h with
  | fails | reads | crcInit | crcByte => exact ⟨hbinLen, hchrLen, hbin, hchr⟩
  | binWr idx imm hidx => exact ⟨hbinLen, hchrLen, Memory.write_wf imm hbin hidx, hchr⟩
  | binLen imm himm => exact ⟨(toNat_lengthOperand (by omega)).trans_le himm, hchrLen, hbin, hchr⟩
  | chrWr idx imm hidx => exact ⟨hbinLen, hchrLen, hbin, Memory.write_wf imm hchr hidx⟩
  | chrLen imm himm => exact ⟨hbinLen, (toNat_lengthOperand (by omega)).trans_le himm, hbin, hchr⟩
  | txtEnc frame d hlen =>
    exact ⟨hbinLen, (toNat_lengthOfCount (by omega)).trans_le hlen, hbin, Memory.writeFrom_wf hchr (by omega)⟩
  | txtDec payload d hlen =>
    exact ⟨(toNat_lengthOfCount (by omega)).trans_le hlen, hchrLen, Memory.writeFrom_wf hbin (by omega), hchr⟩

theorem runWord_inv {w : Word} {s t : State} (h : runWord w s = .next t) (hinv : s.Inv) : t.Inv := by
  obtain ⟨i, -, he⟩ | ⟨e, -, rfl⟩ := runWord_cases h
  · exact he.inv hinv
  · exact ⟨hinv.binLen_le, hinv.chrLen_le, hinv.bin_wf, hinv.chr_wf⟩

/-- The reset state meets the invariant, and so does asserting reset: the lengths are 0 and the buffers empty. -/
theorem inv_of_reset_values {s : State} (hbinLen : s.binLen = 0#6) (hchrLen : s.chrLen = 0#6) (hbin : s.bin = [])
    (hchr : s.chr = []) : s.Inv :=
  ⟨by simp [hbinLen], by simp [hchrLen], hbin ▸ Memory.wf_nil 45, hchr ▸ Memory.wf_nil 61⟩

/-- Settles O48: a command keeps the invariant by its effect, reset restores it, and no other act of the host touches
the lengths or the buffers. -/
theorem everyStepKeepsTheLengthsLegal : Obligations.EveryStepKeepsTheLengthsLegal := by
  intro s t hinv h
  obtain ⟨hbinLen, hchrLen, hbin, hchr⟩ := hinv
  obtain ⟨-, rfl⟩ | ⟨w, rest, -, -, hw⟩ | ⟨rest, r, -, -, rfl⟩ | ⟨rest, -, rfl⟩ | ⟨rest, -, rfl⟩ := step_cases h
  · exact ⟨hbinLen, hchrLen, hbin, hchr⟩
  · exact runWord_inv hw ⟨hbinLen, hchrLen, hbin, hchr⟩
  · exact ⟨hbinLen, hchrLen, hbin, hchr⟩
  · exact inv_of_reset_values rfl rfl rfl rfl
  · exact ⟨hbinLen, hchrLen, hbin, hchr⟩

/-! ### Reachable states -/

/-- Every reachable state meets the invariant (R28). -/
theorem Reachable.inv {s : State} (h : Reachable s) : s.Inv :=
  reachable_induction (fun _ _ => inv_of_reset_values rfl rfl rfl rfl) everyStepKeepsTheLengthsLegal h

/-- A host that breaks a duty is stuck by the name of the duty, whatever the lengths (R181, R184, U8). -/
theorem step_of_broken_duty {s : State} (h : hostKeepsDuties s = false) :
    step s = .fault .commandDuringReset ∨ step s = .fault .commandBeforeResponse ∨ step s = .fault .noResponse := by
  cases hs : s.script with
  | nil => simp [hostKeepsDuties, hs] at h
  | cons e rest =>
    rw [hostKeepsDuties, hs] at h
    cases e with
    | command w =>
      by_cases hr : s.inReset = true
      · exact .inl (by simp [step, nextAct, hs, hostAct, issueCommand, hr])
      · have ho : s.outstanding.isSome = true := by simpa [State.ready, hr] using h
        exact .inr (.inl (by simp [step, nextAct, hs, hostAct, issueCommand, hr, ho]))
    | receive =>
      have ho : s.outstanding = none := by simpa using h
      exact .inr (.inr (by simp [step, nextAct, hs, hostAct, receiveResponse, ho]))
    | assertReset | releaseReset => simp at h

/-- No step of a state that meets the invariant is the fault of an entry that does not exist (R41). -/
theorem step_ne_noSuchEntry {s : State} (hinv : s.Inv) : step s ≠ .fault .noSuchEntry := by
  cases hduty : hostKeepsDuties s with
  | true =>
    obtain ⟨t, ht⟩ := safeStep_of_hostKeepsDuties hinv hduty
    rw [ht]
    nofun
  | false => obtain h | h | h := step_of_broken_duty hduty <;> rw [h] <;> nofun

/-- Settles O50: the invariant holds of every reachable state, and with it no step faults on an entry. -/
theorem reachableLengthsAreLegal : Obligations.ReachableLengthsAreLegal := fun _ h =>
  ⟨h.inv.binLen_le, h.inv.chrLen_le, step_ne_noSuchEntry h.inv⟩

/-! ### Which command writes which piece of state -/

section
variable {s t : State} {i : Instr}

theorem Effect.writes_acc (h : Effect s i t) (hne : t.acc ≠ s.acc) : i = .crcInit ∨ ∃ imm, i = .crcByte imm := by
  cases h with
  | crcInit => exact .inl rfl
  | crcByte imm => exact .inr ⟨imm, rfl⟩
  | fails | reads | binWr | binLen | chrWr | chrLen | txtEnc | txtDec => exact absurd rfl hne

theorem Effect.writes_bin (h : Effect s i t) {j : Nat} (hne : t.bin.entry j ≠ s.bin.entry j) :
    (∃ idx imm, i = .binWr idx imm ∧ idx.toNat = j) ∨ i = .txtDec := by
  cases h with
  | binWr idx imm =>
    exact .inl ⟨idx, imm, rfl, by_contra fun hj => hne (s.bin.entry_write_of_ne imm (Ne.symm hj))⟩
  | txtDec => exact .inr rfl
  | fails | reads | crcInit | crcByte | binLen | chrWr | chrLen | txtEnc => exact absurd rfl hne

theorem Effect.writes_binLen (h : Effect s i t) (hne : t.binLen ≠ s.binLen) :
    (∃ imm, i = .binLen imm) ∨ i = .txtDec := by
  cases h with
  | binLen imm => exact .inl ⟨imm, rfl⟩
  | txtDec => exact .inr rfl
  | fails | reads | crcInit | crcByte | binWr | chrWr | chrLen | txtEnc => exact absurd rfl hne

theorem Effect.writes_chr (h : Effect s i t) {j : Nat} (hne : t.chr.entry j ≠ s.chr.entry j) :
    (∃ idx imm, i = .chrWr idx imm ∧ idx.toNat = j) ∨ i = .txtEnc := by
  cases h with
  | chrWr idx imm =>
    exact .inl ⟨idx, imm, rfl, by_contra fun hj => hne (s.chr.entry_write_of_ne imm (Ne.symm hj))⟩
  | txtEnc => exact .inr rfl
  | fails | reads | crcInit | crcByte | binWr | binLen | chrLen | txtDec => exact absurd rfl hne

theorem Effect.writes_chrLen (h : Effect s i t) (hne : t.chrLen ≠ s.chrLen) :
    (∃ imm, i = .chrLen imm) ∨ i = .txtEnc := by
  cases h with
  | chrLen imm => exact .inl ⟨imm, rfl⟩
  | txtEnc => exact .inr rfl
  | fails | reads | crcInit | crcByte | binWr | binLen | chrWr | txtDec => exact absurd rfl hne

theorem Effect.sameHost (h : Effect s i t) : SameHost s t := by
  cases h <;> exact ⟨rfl, rfl, rfl, rfl⟩

end

/-- Settles O36: the effect of a command writes the pieces of its row of R20 only. -/
theorem eachStateIsWrittenByItsCommandsOnly : Obligations.EachStateIsWrittenByItsCommandsOnly := by
  intro i s t h
  have he := exec_effect h
  exact ⟨he.writes_acc, fun _ => he.writes_bin, he.writes_binLen, fun _ => he.writes_chr, he.writes_chrLen,
    he.sameHost⟩

/-! ### Written-marks -/

/-- Every written-mark of `m` is set in `m'` (R26). -/
def Memory.KeepsMarks (m m' : Memory) : Prop := ∀ j, (m.entry j).isSome = true → (m'.entry j).isSome = true

theorem Memory.keepsMarks_refl (m : Memory) : m.KeepsMarks m := fun _ h => h

theorem Memory.keepsMarks_write (m : Memory) (i : Nat) (v : Byte) : m.KeepsMarks (m.write i v) := by
  intro j h
  rw [Memory.entry_write]
  split_ifs with hj
  · rfl
  · exact h

theorem Memory.keepsMarks_writeFrom (m : Memory) (start : Nat) (bytes : List Byte) :
    m.KeepsMarks (m.writeFrom start bytes) := by
  intro j h
  rw [Memory.entry_writeFrom]
  split_ifs with hj
  · rfl
  · exact h

/-- No effect of a command clears a written-mark. -/
theorem Effect.keepsMarks {s t : State} {i : Instr} (h : Effect s i t) :
    s.bin.KeepsMarks t.bin ∧ s.chr.KeepsMarks t.chr := by
  cases h with
  | fails | reads | crcInit | crcByte | binLen | chrLen =>
    exact ⟨s.bin.keepsMarks_refl, s.chr.keepsMarks_refl⟩
  | binWr idx imm => exact ⟨s.bin.keepsMarks_write _ imm, s.chr.keepsMarks_refl⟩
  | chrWr idx imm => exact ⟨s.bin.keepsMarks_refl, s.chr.keepsMarks_write _ imm⟩
  | txtEnc frame => exact ⟨s.bin.keepsMarks_refl, s.chr.keepsMarks_writeFrom 0 frame⟩
  | txtDec payload => exact ⟨s.bin.keepsMarks_writeFrom 0 payload, s.chr.keepsMarks_refl⟩

theorem runWord_keepsMarks {w : Word} {s t : State} (h : runWord w s = .next t) :
    s.bin.KeepsMarks t.bin ∧ s.chr.KeepsMarks t.chr := by
  obtain ⟨i, -, he⟩ | ⟨e, -, rfl⟩ := runWord_cases h
  · exact he.keepsMarks
  · exact ⟨s.bin.keepsMarks_refl, s.chr.keepsMarks_refl⟩

/-- A step that is not the assertion of reset clears no written-mark (R26, R180). -/
theorem step_keepsMarks {s t : State} (h : step s = .next t) (hreset : ∀ rest, s.script ≠ .assertReset :: rest) :
    s.bin.KeepsMarks t.bin ∧ s.chr.KeepsMarks t.chr := by
  obtain ⟨-, rfl⟩ | ⟨w, rest, -, -, hw⟩ | ⟨rest, r, -, -, rfl⟩ | ⟨rest, hs, -⟩ | ⟨rest, -, rfl⟩ := step_cases h
  · exact ⟨t.bin.keepsMarks_refl, t.chr.keepsMarks_refl⟩
  · exact runWord_keepsMarks (s := s.setScript rest) hw
  · exact ⟨s.bin.keepsMarks_refl, s.chr.keepsMarks_refl⟩
  · exact absurd hs (hreset rest)
  · exact ⟨s.bin.keepsMarks_refl, s.chr.keepsMarks_refl⟩

/-- Settles O37: a command only adds written entries, and no host act but asserting reset touches them. -/
theorem onlyResetClearsWrittenMarks : Obligations.OnlyResetClearsWrittenMarks :=
  ⟨fun _ _ _ j h => ⟨(runWord_keepsMarks h).1 j, (runWord_keepsMarks h).2 j⟩,
    fun _ _ j h hreset => ⟨(step_keepsMarks h hreset).1 j, (step_keepsMarks h hreset).2 j⟩⟩

/-! ### Draws -/

/-- A bin.rd of an unwritten entry answers the next draw (R26, R101). -/
theorem exec_binRd_of_unwritten {idx : Byte} {s : State} (hidx : idx.toNat < 45)
    (hentry : s.bin.entry idx.toNat = none) : exec (.binRd idx) s =
      .next ((s.setDraws (s.draws + 1)).setOutstanding (some ⟨.ok, (Config.draw s.draws).setWidth 32⟩)) := by
  rw [exec, execBinRd_of_lt s hidx, Memory.read_of_unwritten s.draws hentry]
  rfl

/-- A chr.rd of an unwritten entry answers the next draw (R26, R105). -/
theorem exec_chrRd_of_unwritten {idx : Byte} {s : State} (hidx : idx.toNat < 61)
    (hentry : s.chr.entry idx.toNat = none) : exec (.chrRd idx) s =
      .next ((s.setDraws (s.draws + 1)).setOutstanding (some ⟨.ok, (Config.draw s.draws).setWidth 32⟩)) := by
  rw [exec, execChrRd_of_lt s hidx, Memory.read_of_unwritten s.draws hentry]
  rfl

/-- Settles O38: the first read leaves the entry unwritten and one more draw answered, so the second takes the next. -/
theorem unwrittenReadsAreSeparateDraws : Obligations.UnwrittenReadsAreSeparateDraws :=
  ⟨fun _ _ hidx hentry => ⟨_, _, exec_binRd_of_unwritten hidx hentry, exec_binRd_of_unwritten hidx hentry,
      rfl, rfl, rfl⟩,
    fun _ _ hidx hentry => ⟨_, _, exec_chrRd_of_unwritten hidx hentry, exec_chrRd_of_unwritten hidx hentry,
      rfl, rfl, rfl⟩⟩

/-! ### `ACC`

A command that does not read `ACC` answers the same with another value in it, and leaves that value there. -/

theorem respond_setAcc {st : Status} {data : Word} {s t : State} (v : Word) (h : respond st data s = .next t) :
    respond st data (s.setAcc v) = .next (t.setAcc v) := by
  rw [respond_eq_next h]; rfl

theorem unlessRange_setAcc {st : Status} {s t : State} {go go' : Result} (v : Word)
    (hgo : go = .next t → go' = .next (t.setAcc v)) (h : unlessRange st s go = .next t) :
    unlessRange st (s.setAcc v) go' = .next (t.setAcc v) := by
  cases st with
  | ok => exact hgo h
  | illegal | range | decChar | decCount | decLength => exact respond_setAcc v h

theorem execTxtEnc_setAcc {s t : State} (v : Word) (h : execTxtEnc s = .next t) :
    execTxtEnc (s.setAcc v) = .next (t.setAcc v) := by
  have hle := execTxtEnc_next h
  rw [execTxtEnc_of_le hle] at h
  rw [execTxtEnc_of_le (s := s.setAcc v) hle]
  exact respond_setAcc v h

theorem execTxtDec_setAcc {s t : State} (v : Word) (h : execTxtDec s = .next t) :
    execTxtDec (s.setAcc v) = .next (t.setAcc v) := by
  obtain ⟨hle, ⟨hok, rfl⟩ | ⟨hne, rfl⟩⟩ := execTxtDec_next h
  · exact execTxtDec_of_ok (s := s.setAcc v) hle hok
  · exact execTxtDec_of_ne_ok (s := s.setAcc v) hle hne

/-- The commands outside the CRC unit neither read nor write `ACC` (R20, R29). -/
theorem exec_setAcc {i : Instr} {s t : State} (v : Word) (hinit : i ≠ .crcInit) (hbyte : ∀ imm, i ≠ .crcByte imm)
    (hres : i ≠ .crcRes) (h : exec i s = .next t) : exec i (s.setAcc v) = .next (t.setAcc v) := by
  cases i with
  | crcInit => exact absurd rfl hinit
  | crcByte imm => exact absurd rfl (hbyte imm)
  | crcRes => exact absurd rfl hres
  | binGetlen | chrGetlen => exact respond_setAcc v h
  | binWr | binRd | binLen | chrWr | chrRd | chrLen => exact unlessRange_setAcc v (respond_setAcc v) h
  | txtEnc => exact execTxtEnc_setAcc v h
  | txtDec => exact execTxtDec_setAcc v h

/-- Settles O13: crc.init overwrites `ACC` whatever it holds, and every other command but the two readers leaves the
same state up to `ACC`. -/
theorem onlyCrcCommandsReadTheAccumulator : Obligations.OnlyCrcCommandsReadTheAccumulator := by
  intro i s t v hres hbyte h
  by_cases hinit : i = .crcInit
  · subst hinit
    exact ⟨t, h, rfl, rfl, rfl, fun _ => rfl, fun _ => rfl, rfl⟩
  · exact ⟨t.setAcc v, exec_setAcc v hinit hbyte hres h, rfl, rfl, rfl, fun _ => rfl, fun _ => rfl, rfl⟩

end Sys2Proof.Machine
end

section
/-! PROOFS. Memory access and ordering (20_memory.md): what repeating a command gives (R44), and the state and the
response that a transaction leaves (R48). -/

namespace Sys2Proof.Machine

/-! ### Writing the same again -/

theorem Memory.write_write_self (m : Memory) (i : Nat) (v : Byte) : (m.write i v).write i v = m.write i v := by
  induction m with
  | nil => simp [Memory.write]
  | cons y rest ih =>
    rw [show y :: rest = (y.1, y.2) :: rest from rfl, Memory.write]
    split_ifs with h1 h2
    · simp [Memory.write]
    · simp [Memory.write]
    · rw [Memory.write, if_neg h1, if_neg h2, ih]

theorem Memory.writeFrom_writeFrom_self {size : Nat} {m : Memory} {start : Nat} {bytes : List Byte} (hm : m.wf size)
    (h : start + bytes.length ≤ size) : (m.writeFrom start bytes).writeFrom start bytes = m.writeFrom start bytes := by
  have hw := Memory.writeFrom_wf hm h
  refine Memory.ext_of_wf (Memory.writeFrom_wf hw h) hw fun j => ?_
  rw [Memory.entry_writeFrom, Memory.entry_writeFrom]
  split_ifs <;> rfl

/-! ### Repeating a command

A command is repeatable from a state when it leads from the state it leaves to that same state. -/

section
variable {s t : State}

/-- A range check that failed fails again with the same response; one that passed leaves it to what it goes on with. -/
theorem unlessRange_repeat {st : Status} {go go' : Result} (hgo : go = .next t → go' = .next t)
    (h : unlessRange st s go = .next t) : unlessRange st t go' = .next t := by
  cases st with
  | ok => exact hgo h
  | illegal | range | decChar | decCount | decLength => rw [respond_eq_next h]; rfl

/-- The writes of one entry, one length or `ACC` put the same value there again (R44). -/
theorem exec_repeat_of_write {i : Instr} (hi : i.opcode ∈ [Opcode.binWr, .chrWr, .binLen, .chrLen, .crcInit])
    (h : exec i s = .next t) : exec i t = .next t := by
  cases i with
  | crcInit => rw [respond_eq_next h]; rfl
  | binLen | chrLen => exact unlessRange_repeat (fun hgo => by rw [respond_eq_next hgo]; rfl) h
  | binWr idx imm =>
    refine unlessRange_repeat (fun hgo => ?_) h
    rw [respond_eq_next hgo, State.setOutstanding_bin, State.setBin_bin, Memory.write_write_self]
    rfl
  | chrWr idx imm =>
    refine unlessRange_repeat (fun hgo => ?_) h
    rw [respond_eq_next hgo, State.setOutstanding_chr, State.setChr_chr, Memory.write_write_self]
    rfl
  | crcByte | crcRes | binRd | binGetlen | chrRd | chrGetlen | txtEnc | txtDec => simp [Instr.opcode] at hi

/-- A bin.rd of a written entry only responds (R101). -/
theorem exec_binRd_of_written {idx : Byte} {v : Byte} (hidx : idx.toNat < 45)
    (hentry : s.bin.entry idx.toNat = some v) : exec (.binRd idx) s = respond .ok (zextByte v) s := by
  rw [exec, execBinRd_of_lt s hidx, Memory.read_of_written s.draws hentry]
  rfl

/-- A chr.rd of a written entry only responds (R105). -/
theorem exec_chrRd_of_written {idx : Byte} {v : Byte} (hidx : idx.toNat < 61)
    (hentry : s.chr.entry idx.toNat = some v) : exec (.chrRd idx) s = respond .ok (zextByte v) s := by
  rw [exec, execChrRd_of_lt s hidx, Memory.read_of_written s.draws hentry]
  rfl

/-- The reads repeat when they read no unwritten entry (R44). -/
theorem exec_repeat_of_read {i : Instr} (hi : i.opcode ∈ [Opcode.binRd, .chrRd, .binGetlen, .chrGetlen, .crcRes])
    (hbin : ∀ idx, i = .binRd idx → idx.toNat < 45 → (s.bin.entry idx.toNat).isSome = true)
    (hchr : ∀ idx, i = .chrRd idx → idx.toNat < 61 → (s.chr.entry idx.toNat).isSome = true)
    (h : exec i s = .next t) : exec i t = .next t := by
  cases i with
  | crcRes | binGetlen | chrGetlen => rw [respond_eq_next h]; rfl
  | binRd idx =>
    by_cases hidx : idx.toNat < 45
    · obtain ⟨v, hv⟩ := Option.isSome_iff_exists.1 (hbin idx rfl hidx)
      rw [respond_eq_next ((exec_binRd_of_written hidx hv).symm.trans h)]
      exact exec_binRd_of_written (s := s.setOutstanding _) hidx hv
    · rw [respond_eq_next ((execBinRd_of_ge s (Nat.le_of_not_lt hidx)).symm.trans h)]
      exact execBinRd_of_ge _ (Nat.le_of_not_lt hidx)
  | chrRd idx =>
    by_cases hidx : idx.toNat < 61
    · obtain ⟨v, hv⟩ := Option.isSome_iff_exists.1 (hchr idx rfl hidx)
      rw [respond_eq_next ((exec_chrRd_of_written hidx hv).symm.trans h)]
      exact exec_chrRd_of_written (s := s.setOutstanding _) hidx hv
    · rw [respond_eq_next ((execChrRd_of_ge s (Nat.le_of_not_lt hidx)).symm.trans h)]
      exact execChrRd_of_ge _ (Nat.le_of_not_lt hidx)
  | crcInit | crcByte | binWr | binLen | chrWr | chrLen | txtEnc | txtDec => simp [Instr.opcode] at hi

/-- The effect of a read is its response and the draws it answered: it has no side effect on the block (R44). -/
theorem Effect.changesNothing_of_read {i : Instr}
    (hi : i.opcode ∈ [Opcode.binRd, .chrRd, .binGetlen, .chrGetlen, .crcRes]) (h : Effect s i t) :
    ChangesNothing s t := by
  cases h with
  | fails | reads => exact ⟨⟨rfl, rfl, rfl, fun _ => rfl, fun _ => rfl⟩, rfl, rfl, rfl, rfl⟩
  | crcInit | crcByte | binWr | binLen | chrWr | chrLen | txtEnc | txtDec => simp [Instr.opcode] at hi

/-- A payload of written entries is read without a draw (R26). -/
theorem payloadRead_draws_of_written (hw : ∀ j < s.binLen.toNat, (s.bin.entry j).isSome = true) :
    (payloadRead s).2 = s.draws := by
  rw [payloadRead_eq, Memory.unwrittenBelow_eq_zero hw, Nat.add_zero]

/-- A line of written entries is read without a draw (R26). -/
theorem lineRead_draws_of_written (hw : ∀ j < s.chrLen.toNat, (s.chr.entry j).isSome = true) :
    (lineRead s).2 = s.draws := by
  rw [lineRead_eq, Memory.unwrittenBelow_eq_zero hw, Nat.add_zero]

/-- Storing a frame again, and answering the same again, changes nothing. -/
theorem storeFrame_repeat {frame : List Byte} {r : Option Response} (hwf : s.chr.wf 61) (hlen : frame.length ≤ 61) :
    (storeFrame frame ((storeFrame frame s).setOutstanding r)).setOutstanding r =
      (storeFrame frame s).setOutstanding r := by
  have hchr := Memory.writeFrom_writeFrom_self (start := 0) hwf (by omega : 0 + frame.length ≤ 61)
  rw [storeFrame, State.setOutstanding_chr, storeFrame_chr, hchr]
  rfl

/-- Storing a payload again, and answering the same again, changes nothing. -/
theorem storePayload_repeat {payload : List Byte} {r : Option Response} (hwf : s.bin.wf 45)
    (hlen : payload.length ≤ 45) :
    (storePayload payload ((storePayload payload s).setOutstanding r)).setOutstanding r =
      (storePayload payload s).setOutstanding r := by
  have hbin := Memory.writeFrom_writeFrom_self (start := 0) hwf (by omega : 0 + payload.length ≤ 45)
  rw [storePayload, State.setOutstanding_bin, storePayload_bin, hbin]
  rfl

/-- txt.enc of written entries stores the frame of the payload (R124). -/
theorem execTxtEnc_of_written (hle : s.binLen.toNat ≤ 45)
    (hw : ∀ j < s.binLen.toNat, (s.bin.entry j).isSome = true) :
    execTxtEnc s = respond .ok 0#32 (storeFrame (encodeFrame (payloadRead s).1) s) := by
  rw [execTxtEnc_of_le hle, payloadRead_draws_of_written hw]
  rfl

/-- txt.dec of written entries that pass the checks stores the payload of the line (R125). -/
theorem execTxtDec_of_written_of_ok (hle : s.chrLen.toNat ≤ 61)
    (hw : ∀ j < s.chrLen.toNat, (s.chr.entry j).isSome = true) (hok : lineStatus s.acceptSpace (lineRead s).1 = .ok) :
    execTxtDec s = respond .ok 0#32 (storePayload (linePayload (lineRead s).1) s) := by
  rw [execTxtDec_of_ok hle hok, lineRead_draws_of_written hw]
  rfl

/-- txt.dec of written entries that fail a check only responds (R125, R151). -/
theorem execTxtDec_of_written_of_ne_ok (hle : s.chrLen.toNat ≤ 61)
    (hw : ∀ j < s.chrLen.toNat, (s.chr.entry j).isSome = true) (hne : lineStatus s.acceptSpace (lineRead s).1 ≠ .ok) :
    execTxtDec s = raiseStatus (lineStatus s.acceptSpace (lineRead s).1) s := by
  rw [execTxtDec_of_ne_ok hle hne, lineRead_draws_of_written hw]
  rfl

/-- txt.enc of written entries repeats: it leaves the payload it reads, and stores the same frame again (R44). -/
theorem execTxtEnc_repeat (hinv : s.Inv) (hw : ∀ j < s.binLen.toNat, (s.bin.entry j).isSome = true)
    (h : execTxtEnc s = .next t) : execTxtEnc t = .next t := by
  obtain rfl := respond_eq_next ((execTxtEnc_of_written hinv.binLen_le hw).symm.trans h)
  refine (execTxtEnc_of_written (s := (storeFrame (encodeFrame (payloadRead s).1) s).setOutstanding _)
    hinv.binLen_le hw).trans ?_
  exact congrArg Host.Outcome.next (storeFrame_repeat hinv.chr_wf (by simpa using frameLength_le hinv.binLen_le))

/-- txt.dec of written entries repeats: it leaves the line it reads, and stores the same payload or raises the same
status again (R44). -/
theorem execTxtDec_repeat (hinv : s.Inv) (hw : ∀ j < s.chrLen.toNat, (s.chr.entry j).isSome = true)
    (h : execTxtDec s = .next t) : execTxtDec t = .next t := by
  by_cases hok : lineStatus s.acceptSpace (lineRead s).1 = .ok
  · obtain rfl := respond_eq_next ((execTxtDec_of_written_of_ok hinv.chrLen_le hw hok).symm.trans h)
    refine (execTxtDec_of_written_of_ok (s := (storePayload (linePayload (lineRead s).1) s).setOutstanding _)
      hinv.chrLen_le hw hok).trans ?_
    obtain ⟨-, -, hcount, -⟩ := (lineStatus_eq_ok_iff _ _).1 hok
    exact congrArg Host.Outcome.next (storePayload_repeat hinv.bin_wf ((length_linePayload _).trans_le hcount))
  · obtain rfl := respond_eq_next ((execTxtDec_of_written_of_ne_ok hinv.chrLen_le hw hok).symm.trans h)
    exact execTxtDec_of_written_of_ne_ok (s := s.setOutstanding _) hinv.chrLen_le hw hok

end

/-- crc.byte folds its byte in again: from reset, a second zero byte changes `ACC` once more (R44, R83). -/
theorem exec_crcByte_not_repeat : ∃ s t u imm, exec (.crcByte imm) s = .next t ∧ exec (.crcByte imm) t = .next u ∧
    u.acc ≠ t.acc := by
  have hacc : crcStep8 (crcStep8 (State.resetOf true).acc 0#8) 0#8 ≠ crcStep8 (State.resetOf true).acc 0#8 := by
    decide +kernel
  exact ⟨State.resetOf true, _, _, 0#8, rfl, rfl,
    by simpa only [State.setOutstanding_acc, State.setAcc_acc] using hacc⟩

/-- Settles O39: a write puts the same values there again, and a command that meets no unwritten entry reads the same
again; two zero bytes folded from reset show that crc.byte does not repeat. -/
theorem readsAndWritesAreIdempotent : Obligations.ReadsAndWritesAreIdempotent :=
  ⟨fun _ _ _ h hi => ⟨(exec_effect h).changesNothing_of_read hi, fun hbin hchr => exec_repeat_of_read hi hbin hchr h⟩,
    fun _ _ _ h hi => exec_repeat_of_write hi h, fun _ _ => execTxtEnc_repeat, fun _ _ => execTxtDec_repeat,
    exec_crcByte_not_repeat⟩

/-! ### Transactions

No command looks at the host's script, so a command answers the same with any acts to follow. -/

theorem respond_setScript {st : Status} {data : Word} {s t : State} (es : List HostEvent)
    (h : respond st data s = .next t) : respond st data (s.setScript es) = .next (t.setScript es) := by
  rw [respond_eq_next h]; rfl

theorem unlessRange_setScript {st : Status} {s t : State} {go go' : Result} (es : List HostEvent)
    (hgo : go = .next t → go' = .next (t.setScript es)) (h : unlessRange st s go = .next t) :
    unlessRange st (s.setScript es) go' = .next (t.setScript es) := by
  cases st with
  | ok => exact hgo h
  | illegal | range | decChar | decCount | decLength => exact respond_setScript es h

theorem execTxtEnc_setScript {s t : State} (es : List HostEvent) (h : execTxtEnc s = .next t) :
    execTxtEnc (s.setScript es) = .next (t.setScript es) := by
  have hle := execTxtEnc_next h
  rw [execTxtEnc_of_le hle] at h
  exact (execTxtEnc_of_le (s := s.setScript es) hle).trans (respond_setScript es h)

theorem execTxtDec_setScript {s t : State} (es : List HostEvent) (h : execTxtDec s = .next t) :
    execTxtDec (s.setScript es) = .next (t.setScript es) := by
  obtain ⟨hle, ⟨hok, rfl⟩ | ⟨hne, rfl⟩⟩ := execTxtDec_next h
  · exact execTxtDec_of_ok (s := s.setScript es) hle hok
  · exact execTxtDec_of_ne_ok (s := s.setScript es) hle hne

theorem exec_setScript {i : Instr} {s t : State} (es : List HostEvent) (h : exec i s = .next t) :
    exec i (s.setScript es) = .next (t.setScript es) := by
  cases i with
  | crcInit | crcByte | crcRes | binGetlen | chrGetlen => exact respond_setScript es h
  | binWr | binRd | binLen | chrWr | chrRd | chrLen => exact unlessRange_setScript es (respond_setScript es) h
  | txtEnc => exact execTxtEnc_setScript es h
  | txtDec => exact execTxtDec_setScript es h

theorem runWord_setScript {w : Word} {s t : State} (es : List HostEvent) (h : runWord w s = .next t) :
    runWord w (s.setScript es) = .next (t.setScript es) := by
  cases hd : decode w with
  | ok i => rw [runWord_of_ok _ hd] at h ⊢; exact exec_setScript es h
  | error e => rw [runWord_of_error _ hd] at h ⊢; exact respond_setScript es h

theorem runWord_sameHost {w : Word} {s t : State} (h : runWord w s = .next t) : SameHost s t := by
  obtain ⟨i, -, he⟩ | ⟨e, -, rfl⟩ := runWord_cases h
  · exact he.sameHost
  · exact ⟨rfl, rfl, rfl, rfl⟩

/-- The two steps of a transaction: the word runs, and its response passes to the host (R6, R48). -/
theorem runSteps_transaction {s t : State} {w : Word} {rest : List HostEvent} {r : Response} (hready : s.ready = true)
    (hscript : s.script = .command w :: .receive :: rest) (hrun : runWord w (s.setScript rest) = .next t)
    (hr : t.outstanding = some r) : runSteps 2 s = .next (deliver (t.setScript rest)) := by
  have hcommand : step s = .next (t.setScript (.receive :: rest)) :=
    (step_of_command hscript hready).trans (runWord_setScript (s := s.setScript rest) _ hrun)
  have hreceive : step (t.setScript (.receive :: rest)) = .next (deliver (t.setScript rest)) :=
    step_of_receive rfl hr
  rw [runSteps_succ 1 hcommand, runSteps_succ 0 hreceive]
  rfl

/-- Settles O43: the first step runs the word, the second delivers its response; neither looks at the acts to come. -/
theorem transactionsAreSequential : Obligations.TransactionsAreSequential := by
  intro s t w ws rest hready hscript hrun
  obtain ⟨⟨r, hr⟩, hs⟩ := runWord_answers hrun
  obtain ⟨hreset, -, -, hreceived⟩ := runWord_sameHost hrun
  refine ⟨r, _, hr, runSteps_transaction hready hscript hrun hr, ?_, rfl, ?_, rfl, rfl, rfl, fun _ => rfl, fun _ => rfl⟩
  · exact (ready_iff _).2 ⟨hreset.trans ((ready_iff s).1 hready).1, rfl⟩
  · rw [deliver_received, State.setScript_received, State.setScript_outstanding, hreceived, hr]
    rfl

end Sys2Proof.Machine
end

section
/-! PROOFS. Encoding (30_encoding.md): a word and its command determine each other, every other word is `ILLEGAL`, what
a response holds, and what the assembler makes of a line. -/

namespace Sys2Proof

open Machine

/-! ### The rows of the opcode map by the fields of a word -/

/-- The mask column of R64, which the format alone decides: `op`, `rsv` and every field that the format does not use. -/
def Format.mask : Format → Word
  | .z => packWord 0xFF#8 0xFF#8 0xFF#8 0xFF#8
  | .b => packWord 0xFF#8 0xFF#8 0xFF#8 0x00#8
  | .i => packWord 0xFF#8 0x00#8 0xFF#8 0xFF#8
  | .ib => packWord 0xFF#8 0x00#8 0xFF#8 0x00#8

/-- Every row tests for its `op`, with the fields that its format does not use zero (R61, R64). -/
theorem row_pattern_mask : ∀ row ∈ opcodeTable,
    row.pattern = packWord row.opcode.code 0#8 0#8 0#8 ∧ row.mask = row.opcode.format.mask := by decide

/-- Every opcode has a row (R64). -/
theorem exists_row (op : Opcode) : ∃ row ∈ opcodeTable, row.opcode = op := by
  cases op <;> decide

/-- No two rows have the same opcode (R64). -/
theorem row_eq_of_opcode_eq : ∀ row ∈ opcodeTable, ∀ row' ∈ opcodeTable, row.opcode = row'.opcode → row = row' := by
  decide

/-- Masking by a format's mask leaves the bare `op` exactly when the format's unused fields are zero. -/
theorem and_mask_eq_iff (f : Format) (w : Word) (op : Byte) :
    w &&& f.mask = packWord op 0#8 0#8 0#8 ↔ opField w = op ∧ ¬ UnusedFieldSet f w := by
  have hff : ∀ b : Byte, b &&& 0xFF#8 = b := fun _ => BitVec.and_allOnes
  rw [← packWord_fields w]
  cases f <;> simp [Format.mask, UnusedFieldSet, packWord_and, packWord_inj, hff]

/-- A row selects the words with its `op` whose unused fields are zero. -/
theorem selects_iff_fields {row : OpcodeRow} (hrow : row ∈ opcodeTable) (w : Word) : row.selects w = true ↔
    opField w = row.opcode.code ∧ ¬ UnusedFieldSet row.opcode.format w := by
  obtain ⟨hpattern, hmask⟩ := row_pattern_mask row hrow
  rw [selects_iff, hpattern, hmask, and_mask_eq_iff]

/-- At most one row selects a word. -/
theorem selects_unique {row row' : OpcodeRow} {w : Word} (hrow : row ∈ opcodeTable) (hrow' : row' ∈ opcodeTable)
    (h : row.selects w = true) (h' : row'.selects w = true) : row' = row := by
  obtain ⟨hop, -⟩ := (selects_iff_fields hrow w).1 h
  obtain ⟨hop', -⟩ := (selects_iff_fields hrow' w).1 h'
  exact row_eq_of_opcode_eq row' hrow' row hrow (code_injective (hop'.symm.trans hop))

/-- The word that a row selects decodes to its command (R65(a)). -/
theorem decode_of_selects {row : OpcodeRow} {w : Word} (hrow : row ∈ opcodeTable) (h : row.selects w = true) :
    decode w = .ok (row.opcode.withOperands (idxField w) (immField w)) := by
  cases hd : decode w with
  | ok i =>
    obtain ⟨row', hrow', h', rfl⟩ := decode_ok_selected hd
    rw [selects_unique hrow hrow' h h']
  | error e =>
    rw [decode] at hd
    cases hf : opcodeTable.find? (fun row => row.selects w) with
    | some row' => rw [hf] at hd; cases hd
    | none => exact absurd h (List.find?_eq_none.1 hf row hrow)

/-! ### Encoding and decoding -/

@[simp] theorem opcode_withOperands (op : Opcode) (idx imm : Byte) : (op.withOperands idx imm).opcode = op := by
  cases op <;> rfl

theorem withOperands_operands (i : Instr) : i.opcode.withOperands i.idxOperand i.immOperand = i := by
  cases i <;> rfl

/-- Where the unused fields of a word are zero, its fields are those of the command with its operand fields: the
operands that the command has, and zero for those that it does not have. -/
theorem operands_withOperands_fields {op : Opcode} {w : Word} (hunused : ¬ UnusedFieldSet op.format w) :
    (op.withOperands (idxField w) (immField w)).idxOperand = idxField w ∧ rsvField w = 0#8 ∧
      (op.withOperands (idxField w) (immField w)).immOperand = immField w := by
  cases op <;>
    simp_all [Opcode.withOperands, Instr.idxOperand, Instr.immOperand, Opcode.format, UnusedFieldSet]

/-- A word whose unused fields are zero is the word of the command with its operand fields. -/
theorem encode_withOperands_fields {op : Opcode} {w : Word} (hop : opField w = op.code)
    (hunused : ¬ UnusedFieldSet op.format w) : encode (op.withOperands (idxField w) (immField w)) = w := by
  obtain ⟨hidx, hrsv, himm⟩ := operands_withOperands_fields hunused
  rw [encode, opcode_withOperands, hidx, himm, ← hop, ← hrsv, packWord_fields]

/-- The word of a command has no field set that its format does not use (R61). -/
theorem not_unusedFieldSet_encode (i : Instr) : ¬ UnusedFieldSet i.opcode.format (encode i) := by
  obtain ⟨-, hidx, hrsv, himm⟩ := Laws.encodedFields i
  cases i <;> simp [Instr.opcode, Opcode.format, UnusedFieldSet, hidx, hrsv, himm, Instr.idxOperand,
    Instr.immOperand]

/-- A word decodes to a command exactly when it is the command's word. -/
theorem decode_eq_ok_iff {w : Word} {i : Instr} : decode w = .ok i ↔ encode i = w := by
  constructor
  · intro h
    obtain ⟨row, hrow, hsel, rfl⟩ := decode_ok_selected h
    obtain ⟨hop, hunused⟩ := (selects_iff_fields hrow w).1 hsel
    exact encode_withOperands_fields hop hunused
  · rintro rfl
    obtain ⟨hop, hidx, -, himm⟩ := Laws.encodedFields i
    obtain ⟨row, hrow, hrowop⟩ := exists_row i.opcode
    have hsel : row.selects (encode i) = true :=
      (selects_iff_fields hrow _).2 (hrowop ▸ ⟨hop, not_unusedFieldSet_encode i⟩)
    rw [decode_of_selects hrow hsel, hidx, himm, hrowop, withOperands_operands]

/-- Settles O1: the decoder reads a command from a word exactly when the word is the command's. -/
theorem decodeInvertsEncode : Obligations.DecodeInvertsEncode := fun _ => decode_eq_ok_iff.2 rfl

/-- Settles O2: the other direction of the same equivalence. -/
theorem encodeInvertsDecode : Obligations.EncodeInvertsDecode := fun _ _ => decode_eq_ok_iff.1

/-- Settles O4: a word that decodes is the encoder's word, whose fields are the operands; and every command has one. -/
theorem operandsAreTheFieldsUntransformed : Obligations.OperandsAreTheFieldsUntransformed := by
  refine ⟨fun w i h => ?_, fun i => ⟨encode i, decodeInvertsEncode i⟩⟩
  obtain ⟨-, hidx, hrsv, himm⟩ := Laws.encodedFields i
  rw [← decode_eq_ok_iff.1 h]
  exact ⟨hidx.symm, himm.symm, hrsv⟩

/-! ### Words of no command -/

/-- An `op` is reserved exactly when no opcode has it (R66). -/
theorem isReservedOp_iff (b : Byte) : isReservedOp b = true ↔ ∀ op : Opcode, op.code ≠ b := by
  rw [isReservedOp, List.all_eq_true]
  constructor
  · intro h op
    obtain ⟨row, hrow, rfl⟩ := exists_row op
    simpa using h row hrow
  · intro h row _
    simpa using h row.opcode

/-- No row selects a word whose `op` belongs to an opcode only with a nonzero field that the format does not use. -/
theorem unselected_iff (w : Word) : (∀ row ∈ opcodeTable, row.selects w = false) ↔
    ∀ op : Opcode, opField w = op.code → UnusedFieldSet op.format w := by
  constructor
  · intro h op hop
    obtain ⟨row, hrow, rfl⟩ := exists_row op
    by_contra hunused
    exact absurd ((selects_iff_fields hrow w).2 ⟨hop, hunused⟩) (by simp [h row hrow])
  · intro h row hrow
    rw [Bool.eq_false_iff]
    intro hsel
    obtain ⟨hop, hunused⟩ := (selects_iff_fields hrow w).1 hsel
    exact hunused (h row.opcode hop)

/-- R65(b): no row selects a word exactly when its `op` is reserved or it sets a field that its format does not use. -/
theorem unselected_iff_reserved_or_unused (w : Word) : (∀ row ∈ opcodeTable, row.selects w = false) ↔
    isReservedOp (opField w) = true ∨ ∃ op : Opcode, opField w = op.code ∧ UnusedFieldSet op.format w := by
  rw [unselected_iff, isReservedOp_iff]
  constructor
  · intro h
    by_cases hop : ∃ op : Opcode, opField w = op.code
    · obtain ⟨op, hop⟩ := hop
      exact .inr ⟨op, hop, h op hop⟩
    · exact .inl fun op hc => hop ⟨op, hc.symm⟩
  · rintro (hres | ⟨op, hop, hunused⟩) op' hop'
    · exact absurd hop'.symm (hres op')
    · rwa [← code_injective (hop.symm.trans hop')]

/-- A word that no row selects raises `ILLEGAL` with no state change (R65(b), R153). -/
theorem runWord_of_unselected {w : Word} (h : ∀ row ∈ opcodeTable, row.selects w = false) (s : State) :
    FailsWith .illegal s.draws s (runWord w s) := by
  obtain ⟨e, he⟩ := decode_of_unselected h
  rw [runWord_of_error s he]
  exact raiseStatus_failsWith .illegal s

/-- A nonzero field that the format of its opcode does not use makes a word `ILLEGAL` (R65(b)). -/
theorem illegalWhere_unusedFieldSet (op : Opcode) : IllegalWhere op.code (UnusedFieldSet op.format) :=
  fun w s hop hunused =>
    runWord_of_unselected ((unselected_iff_reserved_or_unused w).2 (.inr ⟨op, hop, hunused⟩)) s

/-- A reserved `op` makes a word `ILLEGAL`, whatever its other fields (R66). -/
theorem runWord_of_reserved {w : Word} (h : isReservedOp (opField w) = true) (s : State) :
    FailsWith .illegal s.draws s (runWord w s) :=
  runWord_of_unselected ((unselected_iff_reserved_or_unused w).2 (.inl h)) s

/-- Settles O3: the row that selects a word is the only one and names its command; where there is none the word is
`ILLEGAL`. -/
theorem everyWordDecodesOneWay : Obligations.EveryWordDecodesOneWay := by
  refine fun w => ⟨?_, unselected_iff_reserved_or_unused w⟩
  by_cases hex : ∃ row ∈ opcodeTable, row.selects w = true
  · obtain ⟨row, hrow, hsel⟩ := hex
    exact .inl ⟨row, hrow, hsel, fun row' hrow' hsel' => selects_unique hrow hrow' hsel hsel',
      fun s => runWord_of_ok s (decode_of_selects hrow hsel)⟩
  · have hnone : ∀ row ∈ opcodeTable, row.selects w = false := fun row hrow =>
      Bool.eq_false_iff.2 fun hsel => hex ⟨row, hrow, hsel⟩
    exact .inr ⟨hnone, runWord_of_unselected hnone⟩

/-- The `op` column of R64, in the order of the rows. -/
theorem opcodeTable_codes : opcodeTable.map (fun row => row.opcode.code) =
    [0x10#8, 0x11#8, 0x12#8, 0x20#8, 0x21#8, 0x22#8, 0x23#8, 0x28#8, 0x29#8, 0x2A#8, 0x2B#8, 0x30#8, 0x31#8] := rfl

theorem isReservedOp_of_not_mem {b : Byte} (h : b ∉ opcodeTable.map (fun row => row.opcode.code)) :
    isReservedOp b = true :=
  (isReservedOp_iff b).2 fun op hop => by
    obtain ⟨row, hrow, rfl⟩ := exists_row op
    exact h (List.mem_map.2 ⟨row, hrow, hop⟩)

/-- Settles O5: an `op` outside the thirteen of the map is reserved, and the 243 reserved ones are counted. -/
theorem reservedOpcodesAreIllegal : Obligations.ReservedOpcodesAreIllegal :=
  ⟨fun _ s h => runWord_of_reserved (isReservedOp_of_not_mem (opcodeTable_codes ▸ h)) s, by decide +kernel,
    runWord_of_reserved (by decide)⟩

/-- Settles O6: each worked word is the encoder's, so it decodes to its command; the two illegal ones set a field that
their format does not use. -/
theorem workedEncodingsDecode : Obligations.WorkedEncodingsDecode := by
  have both : ∀ {w : Word} {i : Instr}, encode i = w → decode w = .ok i ∧ encode i = w := fun h =>
    ⟨decode_eq_ok_iff.2 h, h⟩
  exact ⟨both (by decide), both (by decide), both (by decide), both (by decide), both (by decide), both (by decide),
    fun s => illegalWhere_unusedFieldSet .crcInit _ s (by decide) (.inr (.inr (by decide))),
    fun s => illegalWhere_unusedFieldSet .crcByte _ s (by decide) (.inr (by decide))⟩

end Sys2Proof

namespace Sys2Proof.Machine

/-! ### Responses -/

/-- Every command overwrites the response port and none reads it: what stands there from the command before has no part
in what a command does (R63). -/
theorem exec_setOutstanding (i : Instr) (s : State) (r : Option Response) :
    exec i (s.setOutstanding r) = exec i s := by
  cases i <;> rfl

/-- The state holds a response, whose data is `data` when its status is `OK` and 0 otherwise (R63). -/
def State.Answers (t : State) (data : Word) : Prop :=
  ∃ r, t.outstanding = some r ∧ (r.status ≠ .ok → r.data = 0#32) ∧ (r.status = .ok → r.data = data)

theorem answers_of_respond_ok {data : Word} {s t : State} (h : respond .ok data s = .next t) : t.Answers data := by
  rw [respond_eq_next h]
  exact ⟨_, rfl, fun hne => absurd rfl hne, fun _ => rfl⟩

theorem answers_of_raiseStatus {st : Status} {s t : State} (data : Word)
    (h : raiseStatus st s = .next t) (hne : st ≠ .ok) : t.Answers data := by
  rw [respond_eq_next h]
  exact ⟨_, rfl, fun _ => rfl, fun hok => absurd hok hne⟩

/-- A command behind a range check answers `RANGE` with data 0, or the data it goes on to respond. -/
theorem answers_of_unlessRange {st : Status} {data : Word} {s u t : State}
    (h : unlessRange st s (respond .ok data u) = .next t) : t.Answers data := by
  cases st with
  | ok => exact answers_of_respond_ok h
  | illegal | range | decChar | decCount | decLength => exact answers_of_raiseStatus data h (by decide)

theorem Memory.read_fst (m : Memory) (d i : Nat) : (m.read d i).1 = (m.entry i).getD (Config.draw d) := by
  rw [Memory.read_eq]

/-- Settles O34: each command ends by a `respond` of its own data or by a raised status. -/
theorem responseDataOfEveryCommand : Obligations.ResponseDataOfEveryCommand := by
  refine ⟨exec_setOutstanding, fun i s t h => ?_⟩
  cases i with
  | crcInit | crcByte | crcRes | binGetlen | chrGetlen => exact answers_of_respond_ok h
  | binWr | binLen | chrWr | chrLen => exact answers_of_unlessRange h
  | binRd idx =>
    have ha : t.Answers (zextByte (s.bin.read s.draws idx.toNat).1) := answers_of_unlessRange h
    rwa [Memory.read_fst] at ha
  | chrRd idx =>
    have ha : t.Answers (zextByte (s.chr.read s.draws idx.toNat).1) := answers_of_unlessRange h
    rwa [Memory.read_fst] at ha
  | txtEnc => exact answers_of_respond_ok ((execTxtEnc_of_le (execTxtEnc_next h)).symm.trans h)
  | txtDec =>
    obtain ⟨hle, ⟨hok, -⟩ | ⟨hne, -⟩⟩ := execTxtDec_next h
    · exact answers_of_respond_ok ((execTxtDec_of_ok hle hok).symm.trans h)
    · exact answers_of_raiseStatus 0#32 ((execTxtDec_of_ne_ok hle hne).symm.trans h) hne

/-! ### Assembly lines -/

theorem all_operandFits_iff (operands : List Nat) :
    operands.all operandFits = true ↔ ∀ n ∈ operands, n < 256 := by
  simp [operandFits]

/-- A plain line is well formed when it has the operands of its format, each a byte (R67). -/
theorem plain_wellFormed_iff (op : Opcode) (operands : List Nat) : (AsmLine.plain op operands).wellFormed = true ↔
    operands.length = op.format.arity ∧ ∀ n ∈ operands, n < 256 := by
  rw [AsmLine.wellFormed, Bool.and_eq_true, beq_iff_eq, all_operandFits_iff]

theorem assembleLine_of_wellFormed {line : AsmLine} (h : line.wellFormed = true) :
    assembleLine line = some ((expandLine line).map encode) := if_pos h

theorem assembleLine_eq_none_iff (line : AsmLine) : assembleLine line = none ↔ ¬ line.wellFormed = true := by
  simp [assembleLine]

/-- A line that assembles is well formed, and its words are those of its expansion (R67). -/
theorem assembleLine_eq_some {line : AsmLine} {words : List Word} (h : assembleLine line = some words) :
    line.wellFormed = true ∧ words = (expandLine line).map encode := by
  have hwf : line.wellFormed = true := by
    by_contra hc
    rw [(assembleLine_eq_none_iff line).2 hc] at h
    cases h
  exact ⟨hwf, Option.some.inj (h.symm.trans (assembleLine_of_wellFormed hwf))⟩

theorem toNat_operandByte {n : Nat} (h : n < 256) : (operandByte n).toNat = n := by
  simp [operandByte, Nat.mod_eq_of_lt h]

/-- A command whose format has an `idx` field holds the index it is given (R61). -/
theorem idxOperand_withOperands {op : Opcode} (idx imm : Byte) (h : op.format = .i ∨ op.format = .ib) :
    (op.withOperands idx imm).idxOperand = idx := by
  cases op with
  | binWr | binRd | chrWr | chrRd => rfl
  | crcInit | crcByte | crcRes | binLen | binGetlen | chrLen | chrGetlen | txtEnc | txtDec =>
    simp [Opcode.format] at h

/-- A command whose format has an `imm` field holds the byte it is given (R61). -/
theorem immOperand_withOperands {op : Opcode} (idx imm : Byte) (h : op.format = .b ∨ op.format = .ib) :
    (op.withOperands idx imm).immOperand = imm := by
  cases op with
  | crcByte | binWr | binLen | chrWr | chrLen => rfl
  | crcInit | crcRes | binRd | binGetlen | chrRd | chrGetlen | txtEnc | txtDec => simp [Opcode.format] at h

/-- The one command of a plain line that has the operands of its format. -/
theorem plainCommand_of_fits {op : Opcode} {operands : List Nat} (hlen : operands.length = op.format.arity)
    (hfits : ∀ n ∈ operands, n < 256) :
    ∃ i, plainCommand op operands = [i] ∧ i.opcode = op ∧ (op.format = .b → operands = [i.immOperand.toNat]) ∧
      (op.format = .i → operands = [i.idxOperand.toNat]) ∧
      (op.format = .ib → operands = [i.idxOperand.toNat, i.immOperand.toNat]) := by
  unfold plainCommand
  cases hf : op.format with
  | z =>
    rw [hf] at hlen
    obtain rfl := List.length_eq_zero_iff.1 hlen
    exact ⟨_, rfl, opcode_withOperands _ _ _, nofun, nofun, nofun⟩
  | b =>
    rw [hf] at hlen
    obtain ⟨imm, rfl⟩ := List.length_eq_one_iff.1 hlen
    refine ⟨_, rfl, opcode_withOperands _ _ _, fun _ => ?_, nofun, nofun⟩
    rw [immOperand_withOperands _ _ (.inl hf), toNat_operandByte (hfits imm (by simp))]
  | i =>
    rw [hf] at hlen
    obtain ⟨idx, rfl⟩ := List.length_eq_one_iff.1 hlen
    refine ⟨_, rfl, opcode_withOperands _ _ _, nofun, fun _ => ?_, nofun⟩
    rw [idxOperand_withOperands _ _ (.inl hf), toNat_operandByte (hfits idx (by simp))]
  | ib =>
    rw [hf] at hlen
    obtain ⟨idx, imm, rfl⟩ := List.length_eq_two.1 hlen
    refine ⟨_, rfl, opcode_withOperands _ _ _, nofun, nofun, fun _ => ?_⟩
    rw [idxOperand_withOperands _ _ (.inr hf), immOperand_withOperands _ _ (.inr hf),
      toNat_operandByte (hfits idx (by simp)), toNat_operandByte (hfits imm (by simp))]

/-- Settles O51: a plain line is refused exactly when its operands do not fit, and else has the word of the one command
that holds them; index 45 fits a line and is out of range for the command. -/
theorem assemblerChecksItsOperands : Obligations.AssemblerChecksItsOperands := by
  refine ⟨fun op operands => ?_, fun op operands words h => ?_, by decide +kernel, fun s => ?_⟩
  · rw [assembleLine_eq_none_iff, plain_wellFormed_iff]
  · obtain ⟨hwf, rfl⟩ := assembleLine_eq_some h
    obtain ⟨hlen, hfits⟩ := (plain_wellFormed_iff op operands).1 hwf
    obtain ⟨i, hi, hholds⟩ := plainCommand_of_fits hlen hfits
    exact ⟨i, by rw [expandLine, hi]; rfl, hholds⟩
  · have hword : decode 0x202D0001#32 = .ok (.binWr 45#8 1#8) := decode_eq_ok_iff.2 rfl
    rw [runWord_of_ok s hword, exec, execBinWr_of_ge 1#8 s (by decide)]
    exact raiseStatus_failsWith .range s

/-! ### The words of the pseudo-instructions -/

/-- A word with `rsv` zero is its `op` with the operands in their places (R61). -/
theorem packWord_eq_or (op idx imm : Byte) : packWord op idx 0#8 imm =
    packWord op 0#8 0#8 0#8 ||| idx.setWidth 32 <<< 16 ||| imm.setWidth 32 := by
  apply BitVec.eq_of_getLsbD_eq
  intro i hi
  interval_cases i <;> simp only [packWord, BitVec.getLsbD_append, BitVec.getLsbD_or, BitVec.getLsbD_shiftLeft,
    BitVec.getLsbD_setWidth] <;> simp

/-- A word with an `imm` operand alone. -/
theorem packWord_byte_eq_or (op imm : Byte) :
    packWord op 0#8 0#8 imm = packWord op 0#8 0#8 0#8 ||| imm.setWidth 32 := by
  rw [packWord_eq_or op 0#8 imm, BitVec.setWidth_zero, BitVec.zero_shiftLeft, BitVec.or_zero]

theorem encode_crcByte (imm : Byte) : encode (.crcByte imm) = 0x11000000#32 ||| imm.setWidth 32 :=
  packWord_byte_eq_or 0x11#8 imm

theorem encode_binWr (idx imm : Byte) :
    encode (.binWr idx imm) = 0x20000000#32 ||| idx.setWidth 32 <<< 16 ||| imm.setWidth 32 :=
  packWord_eq_or 0x20#8 idx imm

theorem encode_binLen (imm : Byte) : encode (.binLen imm) = 0x22000000#32 ||| imm.setWidth 32 :=
  packWord_byte_eq_or 0x22#8 imm

theorem encode_chrWr (idx imm : Byte) :
    encode (.chrWr idx imm) = 0x28000000#32 ||| idx.setWidth 32 <<< 16 ||| imm.setWidth 32 :=
  packWord_eq_or 0x28#8 idx imm

theorem encode_chrLen (imm : Byte) : encode (.chrLen imm) = 0x2A000000#32 ||| imm.setWidth 32 :=
  packWord_byte_eq_or 0x2A#8 imm

theorem setWidth_operandByte {b : Nat} (hb : b < 256) : (operandByte b).setWidth 32 = BitVec.ofNat 32 b := by
  apply BitVec.eq_of_toNat_eq
  rw [BitVec.toNat_setWidth, toNat_operandByte hb, BitVec.toNat_ofNat]

/-- An index in its field is worth 65536 times the index (R61). -/
theorem setWidth_operandByte_shiftLeft {k : Nat} (hk : k < 256) :
    (operandByte k).setWidth 32 <<< 16 = BitVec.ofNat 32 (65536 * k) := by
  rw [setWidth_operandByte hk]
  apply BitVec.eq_of_toNat_eq
  rw [BitVec.toNat_shiftLeft, BitVec.toNat_ofNat, BitVec.toNat_ofNat, Nat.shiftLeft_eq]
  omega

theorem encode_expandSeq {bytes : List Nat} (h : ∀ b ∈ bytes, b < 256) :
    (expandSeq bytes).map encode = bytes.map (fun b => 0x11000000#32 ||| BitVec.ofNat 32 b) := by
  rw [expandSeq, List.map_map]
  refine List.map_congr_left fun b hb => ?_
  rw [Function.comp_apply, encode_crcByte, setWidth_operandByte (h b hb)]

/-- The words of the writes of a load, for a write command `wr` whose words start from `base`: its bytes, one by one,
to the entries from `start` on (R68). -/
theorem encode_expandWrites {base : Word} {wr : Byte → Byte → Instr} {start : Nat} {bytes : List Nat}
    (hwr : ∀ idx imm, encode (wr idx imm) = base ||| idx.setWidth 32 <<< 16 ||| imm.setWidth 32)
    (hlen : start + bytes.length ≤ 256) (h : ∀ b ∈ bytes, b < 256) : (expandWrites wr start bytes).map encode =
      bytes.mapIdx fun k b => base ||| BitVec.ofNat 32 (65536 * (start + k)) ||| BitVec.ofNat 32 b := by
  induction bytes generalizing start with
  | nil => rfl
  | cons b rest ih =>
    rw [List.length_cons] at hlen
    obtain ⟨hb, hrest⟩ := List.forall_mem_cons.1 h
    rw [expandWrites, List.map_cons, ih (by omega) hrest, List.mapIdx_cons, hwr, setWidth_operandByte hb,
      setWidth_operandByte_shiftLeft (by omega : start < 256)]
    simp only [Nat.add_zero, Nat.add_assoc, Nat.add_comm 1]

theorem binLoad_wellFormed_iff (bytes : List Nat) : (AsmLine.binLoad bytes).wellFormed = true ↔
    bytes.length ≤ 45 ∧ ∀ b ∈ bytes, b < 256 := by
  rw [AsmLine.wellFormed, Bool.and_eq_true, decide_eq_true_iff, all_operandFits_iff]
  rfl

theorem chrLoad_wellFormed_iff (bytes : List Nat) : (AsmLine.chrLoad bytes).wellFormed = true ↔
    bytes.length ≤ 61 ∧ ∀ b ∈ bytes, b < 256 := by
  rw [AsmLine.wellFormed, Bool.and_eq_true, decide_eq_true_iff, all_operandFits_iff]
  rfl

theorem assembleLine_binLoad {bytes : List Nat} (hlen : bytes.length ≤ 45) (h : ∀ b ∈ bytes, b < 256) :
    assembleLine (.binLoad bytes) =
      some (bytes.mapIdx (fun k b => 0x20000000#32 ||| BitVec.ofNat 32 (65536 * k) ||| BitVec.ofNat 32 b) ++
        [0x22000000#32 ||| BitVec.ofNat 32 bytes.length]) := by
  rw [assembleLine_of_wellFormed ((binLoad_wellFormed_iff bytes).2 ⟨hlen, h⟩), expandLine, List.map_append,
    encode_expandWrites encode_binWr (by omega) h, List.map_cons, encode_binLen, setWidth_operandByte (by omega)]
  simp only [Nat.zero_add, List.map_nil]

theorem assembleLine_chrLoad {bytes : List Nat} (hlen : bytes.length ≤ 61) (h : ∀ b ∈ bytes, b < 256) :
    assembleLine (.chrLoad bytes) =
      some (bytes.mapIdx (fun k b => 0x28000000#32 ||| BitVec.ofNat 32 (65536 * k) ||| BitVec.ofNat 32 b) ++
        [0x2A000000#32 ||| BitVec.ofNat 32 bytes.length]) := by
  rw [assembleLine_of_wellFormed ((chrLoad_wellFormed_iff bytes).2 ⟨hlen, h⟩), expandLine, List.map_append,
    encode_expandWrites encode_chrWr (by omega) h, List.map_cons, encode_chrLen, setWidth_operandByte (by omega)]
  simp only [Nat.zero_add, List.map_nil]

theorem assembleLine_crcSeq {bytes : List Nat} (h : ∀ b ∈ bytes, b < 256) : assembleLine (.crcSeq bytes) =
    some (bytes.map fun b => 0x11000000#32 ||| BitVec.ofNat 32 b) := by
  rw [assembleLine_of_wellFormed (line := .crcSeq bytes) ((all_operandFits_iff bytes).2 h), expandLine,
    encode_expandSeq h]

theorem assembleLine_crcOf {bytes : List Nat} (h : ∀ b ∈ bytes, b < 256) : assembleLine (.crcOf bytes) =
    some (0x10000000#32 :: bytes.map (fun b => 0x11000000#32 ||| BitVec.ofNat 32 b) ++ [0x12000000#32]) := by
  rw [assembleLine_of_wellFormed (line := .crcOf bytes) ((all_operandFits_iff bytes).2 h), expandLine,
    List.cons_append, List.map_cons, List.map_append, encode_expandSeq h]
  rfl

/-- Settles O52: a text is its character codes, so crc.str expands as crc.seq does and bin.loads as bin.load. -/
theorem pseudoInstructionsExpand : Obligations.PseudoInstructionsExpand := by
  refine ⟨fun bytes h => ⟨assembleLine_crcSeq h, assembleLine_crcSeq h, assembleLine_crcOf h, ?_,
    fun hlen => assembleLine_chrLoad hlen h⟩, by decide⟩
  rintro hlen line (rfl | rfl)
  · exact assembleLine_binLoad hlen h
  · exact assembleLine_binLoad hlen h

/-! ### Loads

Both loads write entries and then a length; `Space` says for each buffer which commands those are. -/

/-- The two addressable spaces (R40). -/
inductive Space where
  | bin
  | chr

/-- The number of entries of a space, which bounds its length too (R7, R41). -/
def Space.size : Space → Nat
  | .bin => 45
  | .chr => 61

/-- The command that writes an entry of the space: bin.wr or chr.wr. -/
def Space.wr : Space → Byte → Byte → Instr
  | .bin => .binWr
  | .chr => .chrWr

/-- The command that sets the length of the space: bin.len or chr.len. -/
def Space.len : Space → Byte → Instr
  | .bin => .binLen
  | .chr => .chrLen

def Space.memory : Space → State → Memory
  | .bin => State.bin
  | .chr => State.chr

def Space.setMemory : Space → State → Memory → State
  | .bin => State.setBin
  | .chr => State.setChr

def Space.setLength : Space → State → Length → State
  | .bin => State.setBinLen
  | .chr => State.setChrLen

theorem SameBlock.refl (s : State) : SameBlock s s := ⟨rfl, rfl, rfl, fun _ => rfl, fun _ => rfl⟩

theorem SameBlock.trans {s t u : State} (hst : SameBlock s t) (htu : SameBlock t u) : SameBlock s u := by
  obtain ⟨hacc, hbinLen, hchrLen, hbin, hchr⟩ := hst
  obtain ⟨hacc', hbinLen', hchrLen', hbin', hchr'⟩ := htu
  exact ⟨hacc'.trans hacc, hbinLen'.trans hbinLen, hchrLen'.trans hchrLen, fun i => (hbin' i).trans (hbin i),
    fun i => (hchr' i).trans (hchr i)⟩

/-- Writing the same bytes to entries that agree leaves entries that agree. -/
theorem Memory.entry_writeFrom_congr {m m' : Memory} (h : ∀ j, m'.entry j = m.entry j) (start : Nat)
    (bytes : List Byte) (j : Nat) : (m'.writeFrom start bytes).entry j = (m.writeFrom start bytes).entry j := by
  rw [Memory.entry_writeFrom, Memory.entry_writeFrom, h]

section
variable (sp : Space)

/-- bin.wr and chr.wr of an entry of the space (R100, R104). -/
theorem exec_wr {idx : Byte} (imm : Byte) (s : State) (h : idx.toNat < sp.size) : exec (sp.wr idx imm) s =
    respond .ok 0#32 (sp.setMemory s ((sp.memory s).write idx.toNat imm)) := by
  cases sp with
  | bin => exact execBinWr_of_lt imm s h
  | chr => exact execChrWr_of_lt imm s h

/-- bin.len and chr.len of a legal length (R102, R106). -/
theorem exec_len {imm : Byte} (s : State) (h : imm.toNat ≤ sp.size) : exec (sp.len imm) s =
    respond .ok 0#32 (sp.setLength s (lengthOperand imm)) := by
  cases sp with
  | bin => exact execBinLen_of_le s h
  | chr => exact execChrLen_of_le s h

@[simp] theorem Space.setMemory_memory (s : State) : sp.setMemory s (sp.memory s) = s := by cases sp <;> rfl

@[simp] theorem Space.memory_setMemory (s : State) (m : Memory) : sp.memory (sp.setMemory s m) = m := by
  cases sp <;> rfl

@[simp] theorem Space.setMemory_setMemory (s : State) (m m' : Memory) :
    sp.setMemory (sp.setMemory s m) m' = sp.setMemory s m' := by cases sp <;> rfl

theorem Space.size_le : sp.size ≤ 61 := by cases sp <;> decide

/-- Blocks that agree still do after the same bytes are written to the space. -/
theorem SameBlock.writeFrom {s t : State} (h : SameBlock s t) (start : Nat) (bytes : List Byte) :
    SameBlock (sp.setMemory s ((sp.memory s).writeFrom start bytes))
      (sp.setMemory t ((sp.memory t).writeFrom start bytes)) := by
  obtain ⟨hacc, hbinLen, hchrLen, hbin, hchr⟩ := h
  cases sp with
  | bin => exact ⟨hacc, hbinLen, hchrLen, Memory.entry_writeFrom_congr hbin start bytes, hchr⟩
  | chr => exact ⟨hacc, hbinLen, hchrLen, hbin, Memory.entry_writeFrom_congr hchr start bytes⟩

/-- Blocks that agree still do after the same length is set. -/
theorem SameBlock.setLength {s t : State} (h : SameBlock s t) (n : Length) :
    SameBlock (sp.setLength s n) (sp.setLength t n) := by
  obtain ⟨hacc, hbinLen, hchrLen, hbin, hchr⟩ := h
  cases sp with
  | bin => exact ⟨hacc, rfl, hchrLen, hbin, hchr⟩
  | chr => exact ⟨hacc, hbinLen, rfl, hbin, hchr⟩

end

/-- A run of `j` steps that is not stuck is followed by the steps after it. -/
theorem runSteps_add {j : Nat} {s t : State} (h : runSteps j s = .next t) (k : Nat) :
    runSteps (k + j) s = runSteps k t := by
  induction j generalizing s with
  | zero => rw [Host.Outcome.next.inj h]; rfl
  | succ j ih =>
    rw [runSteps] at h
    rw [← Nat.add_assoc, runSteps]
    cases hs : step s with
    | next u => rw [hs] at h; exact ih h
    | fault r => rw [hs] at h; cases h
    | refused r => rw [hs] at h; cases h

/-- The transaction of a command that succeeds without data leaves the block that the command's rule gives, ready for
the rest of the list (R48). -/
theorem runSteps_transaction_of_ok {s u : State} {i : Instr} {is : List Instr} {rest : List HostEvent}
    (hready : s.ready = true) (hscript : s.script = transactions ((i :: is).map encode) ++ rest)
    (hexec : exec i s = respond .ok 0#32 u) :
    ∃ t, runSteps 2 s = .next t ∧ t.ready = true ∧ t.script = transactions (is.map encode) ++ rest ∧
      SameBlock u t := by
  have hrun := runWord_setScript (transactions (is.map encode) ++ rest)
    ((runWord_of_ok s (decodeInvertsEncode i)).trans hexec)
  obtain ⟨-, t, -, hsteps, htready, htscript, -, hsame⟩ := transactionsAreSequential s _ _ _ rest hready hscript hrun
  exact ⟨t, hsteps, htready, htscript, hsame⟩

/-- The transactions of the writes of a load, by induction on its bytes: the block is as if they were written from
`start` on, and the commands after the writes are still to come. -/
theorem runSteps_expandWrites (sp : Space) {bytes : List Nat} {start : Nat} {is : List Instr} {s : State}
    {rest : List HostEvent} (hlen : start + bytes.length ≤ sp.size) (hready : s.ready = true)
    (hscript : s.script = transactions ((expandWrites sp.wr start bytes ++ is).map encode) ++ rest) :
    ∃ t, runSteps (2 * bytes.length) s = .next t ∧ t.ready = true ∧
      t.script = transactions (is.map encode) ++ rest ∧
      SameBlock (sp.setMemory s ((sp.memory s).writeFrom start (bytes.map operandByte))) t := by
  induction bytes generalizing start s with
  | nil => exact ⟨s, rfl, hready, hscript, (sp.setMemory_memory s).symm ▸ SameBlock.refl s⟩
  | cons b bytes ih =>
    rw [List.length_cons] at hlen
    have hsize := sp.size_le
    have hstart : (operandByte start).toNat = start := toNat_operandByte (by omega)
    obtain ⟨u, hsteps, huready, huscript, hu⟩ := runSteps_transaction_of_ok hready hscript
      (exec_wr sp (operandByte b) s (by omega))
    obtain ⟨t, hsteps', htready, htscript, ht⟩ := ih (by omega) huready huscript
    refine ⟨t, (runSteps_add hsteps (2 * bytes.length)).trans hsteps', htready, htscript, ?_⟩
    have hrest := SameBlock.writeFrom sp hu (start + 1) (bytes.map operandByte)
    rw [hstart, sp.memory_setMemory, sp.setMemory_setMemory] at hrest
    exact hrest.trans ht

theorem length_expandWrites (wr : Byte → Byte → Instr) (start : Nat) (bytes : List Nat) :
    (expandWrites wr start bytes).length = bytes.length := by
  induction bytes generalizing start with
  | nil => rfl
  | cons b rest ih => rw [expandWrites, List.length_cons, List.length_cons, ih]

/-- The transactions of a whole load: its bytes from entry 0 on, then their number as the length (R68). -/
theorem runSteps_load (sp : Space) {bytes : List Nat} {words : List Word} {s : State} {rest : List HostEvent}
    (hwords : words = (expandWrites sp.wr 0 bytes ++ [sp.len (operandByte bytes.length)]).map encode)
    (hlen : bytes.length ≤ sp.size) (hready : s.ready = true) (hscript : s.script = transactions words ++ rest) :
    ∃ t, runSteps (2 * words.length) s = .next t ∧ t.ready = true ∧ t.script = rest ∧
      SameBlock (sp.setLength (sp.setMemory s ((sp.memory s).writeFrom 0 (bytes.map operandByte)))
        (lengthOperand (operandByte bytes.length))) t := by
  subst hwords
  have hsize := sp.size_le
  have hcount : (operandByte bytes.length).toNat ≤ sp.size := (toNat_operandByte (by omega)).trans_le hlen
  obtain ⟨u, hsteps, huready, huscript, hu⟩ := runSteps_expandWrites sp (by omega) hready hscript
  obtain ⟨t, hsteps', htready, htscript, ht⟩ :=
    runSteps_transaction_of_ok huready huscript (exec_len sp u hcount)
  refine ⟨t, ?_, htready, htscript, (SameBlock.setLength sp hu _).trans ht⟩
  rw [List.length_map, List.length_append, length_expandWrites, List.length_singleton, Nat.mul_succ, Nat.add_comm,
    runSteps_add hsteps, hsteps']

/-- The entries after a load: its bytes from entry 0 on, and the entries beyond them as they were. -/
theorem Memory.entry_writeFrom_operandBytes (m : Memory) (bytes : List Nat) (j : Nat) :
    (m.writeFrom 0 (bytes.map operandByte)).entry j =
      if j < bytes.length then some (BitVec.ofNat 8 (bytes.getD j 0)) else m.entry j := by
  have hbyte : (bytes.map operandByte).getD j 0#8 = operandByte (bytes.getD j 0) := List.getD_map bytes 0 operandByte
  simp only [Memory.entry_writeFrom, Nat.zero_le, true_and, Nat.zero_add, Nat.sub_zero, List.length_map, hbyte,
    operandByte]

/-- The length register after a load holds the number of its bytes. -/
theorem toNat_lengthOperand_operandByte {n : Nat} (h : n ≤ 61) : (lengthOperand (operandByte n)).toNat = n := by
  have hn : (operandByte n).toNat = n := toNat_operandByte (by omega)
  rw [toNat_lengthOperand (by omega), hn]

/-- Settles O53: the line's words are the commands of a load, whose transactions write the space and then its length. -/
theorem loadsFillTheBuffers : Obligations.LoadsFillTheBuffers := by
  constructor
  · intro bytes words s rest hline hready hscript
    obtain ⟨hwf, hwords⟩ := assembleLine_eq_some hline
    obtain ⟨hlen, -⟩ := (binLoad_wellFormed_iff bytes).1 hwf
    obtain ⟨t, hsteps, htready, htscript, hacc, hbinLen, hchrLen, hbin, hchr⟩ :=
      runSteps_load .bin hwords hlen hready hscript
    exact ⟨t, hsteps, htready, htscript, hbinLen ▸ toNat_lengthOperand_operandByte (by omega),
      fun j => (hbin j).trans (s.bin.entry_writeFrom_operandBytes bytes j), hacc, hchrLen, hchr⟩
  · intro bytes words s rest hline hready hscript
    obtain ⟨hwf, hwords⟩ := assembleLine_eq_some hline
    obtain ⟨hlen, -⟩ := (chrLoad_wellFormed_iff bytes).1 hwf
    obtain ⟨t, hsteps, htready, htscript, hacc, hbinLen, hchrLen, hbin, hchr⟩ :=
      runSteps_load .chr hwords hlen hready hscript
    exact ⟨t, hsteps, htready, htscript, hchrLen ▸ toNat_lengthOperand_operandByte hlen,
      fun j => (hchr j).trans (s.chr.entry_writeFrom_operandBytes bytes j), hacc, hbinLen, hbin⟩

end Sys2Proof.Machine
end

section
/-! PROOFS. The CRC unit (40_crc32.md): the round is linear for XOR, so `crc_step8` has its table form and no fixed
point but zero under a zero byte; the three commands; and the transactions that compute `Crc32`. -/

namespace Sys2Proof.Machine

/-! ### Rounds are linear for XOR -/

/-- What a round XORs in: the polynomial when the bit shifted out is 1 (R80). -/
def crcFeedback (x : Word) : Word := if x.getLsbD 0 then Config.crcPoly else 0#32

theorem crcRound_eq (x : Word) : crcRound x = x >>> 1 ^^^ crcFeedback x := by
  unfold crcRound crcFeedback
  split_ifs with h
  · rfl
  · exact (BitVec.xor_zero).symm

theorem crcFeedback_xor (x y : Word) : crcFeedback (x ^^^ y) = crcFeedback x ^^^ crcFeedback y := by
  unfold crcFeedback
  rw [BitVec.getLsbD_xor]
  cases x.getLsbD 0 <;> cases y.getLsbD 0 <;> rfl

theorem crcRound_xor (x y : Word) : crcRound (x ^^^ y) = crcRound x ^^^ crcRound y := by
  simp only [crcRound_eq, crcFeedback_xor, BitVec.ushiftRight_xor_distrib]
  ac_rfl

theorem crcRounds_succ (k : Nat) (x : Word) : crcRounds (k + 1) x = crcRounds k (crcRound x) := rfl

theorem crcRounds_xor (k : Nat) (x y : Word) : crcRounds k (x ^^^ y) = crcRounds k x ^^^ crcRounds k y := by
  induction k generalizing x y with
  | zero => rfl
  | succ k ih => rw [crcRounds_succ, crcRound_xor, ih]; rfl

theorem crcRounds_add (j k : Nat) (x : Word) : crcRounds (j + k) x = crcRounds j (crcRounds k x) := by
  induction k generalizing x with
  | zero => rfl
  | succ k ih => exact ih (crcRound x)

/-- Settles O11: `crc_step8` is eight linear rounds of `a ^^^ b`, which is linear too. -/
theorem crcStepIsLinearForXor : Obligations.CrcStepIsLinearForXor := by
  refine ⟨fun a a' b b' => ?_, by decide⟩
  have hpair : a ^^^ a' ^^^ (b ^^^ b').setWidth 32 = (a ^^^ b.setWidth 32) ^^^ (a' ^^^ b'.setWidth 32) := by
    rw [BitVec.setWidth_xor]
    ac_rfl
  rw [crcStep8, hpair, crcRounds_xor]
  rfl

/-! ### The loop and the table -/

/-- The loop of R80: one round for each value of the loop's counter, which the round does not look at. -/
theorem foldl_crcRound (counter : List Nat) (x : Word) :
    counter.foldl (fun x _ => crcRound x) x = crcRounds counter.length x := by
  induction counter generalizing x with
  | nil => rfl
  | cons i counter ih => exact ih (crcRound x)

/-- While only zeros are shifted out, a round is a shift: nothing is fed back. -/
theorem crcRounds_of_low_zero {k : Nat} {x : Word} (h : ∀ i < k, x.getLsbD i = false) : crcRounds k x = x >>> k := by
  induction k generalizing x with
  | zero => exact (BitVec.ushiftRight_zero x).symm
  | succ k ih =>
    have hround : crcRound x = x >>> 1 := if_neg (Bool.eq_false_iff.1 (h 0 (Nat.zero_lt_succ k)))
    have hlow : ∀ i < k, (x >>> 1).getLsbD i = false := fun i hi => by
      rw [BitVec.getLsbD_ushiftRight]
      exact h (1 + i) (by omega)
    rw [crcRounds_succ, hround, ih hlow, ← BitVec.shiftRight_add, Nat.add_comm]

/-- A byte has no bits above its low 8. -/
theorem setWidth_byte_ushiftRight (b : Byte) : b.setWidth 32 >>> 8 = 0#32 := by
  apply BitVec.eq_of_toNat_eq
  have hb : b.toNat < 256 := b.isLt
  rw [BitVec.toNat_ushiftRight, BitVec.toNat_setWidth, Nat.shiftRight_eq_div_pow, BitVec.toNat_ofNat]
  omega

/-- Eight rounds shift the upper 24 bits down and fold the low byte. -/
theorem crcRounds_eight (x : Word) : crcRounds 8 x = x >>> 8 ^^^ crcRounds 8 ((x.setWidth 8).setWidth 32) := by
  have hsplit : x = (x ^^^ (x.setWidth 8).setWidth 32) ^^^ (x.setWidth 8).setWidth 32 := by
    rw [BitVec.xor_assoc, BitVec.xor_self, BitVec.xor_zero]
  have hhigh : ∀ i < 8, (x ^^^ (x.setWidth 8).setWidth 32).getLsbD i = false := fun i hi => by
    have hi32 : i < 32 := by omega
    simp [hi, hi32]
  conv_lhs => rw [hsplit]
  rw [crcRounds_xor, crcRounds_of_low_zero hhigh, BitVec.ushiftRight_xor_distrib, setWidth_byte_ushiftRight,
    BitVec.xor_zero]

/-- The table form that R80 permits. -/
theorem crcStep8_eq_table (a : Word) (b : Byte) : crcStep8 a b = crcStep8Table a b := by
  rw [crcStep8, crcRounds_eight, BitVec.ushiftRight_xor_distrib, setWidth_byte_ushiftRight, BitVec.xor_zero,
    crcStep8Table, crcStep8, BitVec.zero_xor]

/-- Entry `x AND 0xFF` of a table of 256 entries is the one of the low byte of `x`. -/
theorem getD_table_low_byte (f : Byte → Word) (x : Word) :
    ((List.range 256).map fun i => f (BitVec.ofNat 8 i)).getD (x &&& 0xFF#32).toNat 0#32 = f (x.setWidth 8) := by
  have hindex : (x &&& 0xFF#32).toNat = x.toNat % 256 := by
    rw [BitVec.toNat_and]
    exact Nat.and_two_pow_sub_one_eq_mod x.toNat 8
  have hbyte : BitVec.ofNat 8 (x.toNat % 256) = x.setWidth 8 := by
    apply BitVec.eq_of_toNat_eq
    simp
  have hlt : x.toNat % 256 < 256 := Nat.mod_lt _ (by decide)
  rw [hindex, ← hbyte]
  simp [hlt, List.getD]

/-- Settles O10: the loop is eight rounds by its counter, the table form is `crcStep8_eq_table`. -/
theorem crcFunctionIsTheLoopAndTheTable : Obligations.CrcFunctionIsTheLoopAndTheTable := by
  refine ⟨fun a b => (foldl_crcRound (List.range 8) _).symm, fun a b => ?_, fun _ => rfl, by decide⟩
  rw [getD_table_low_byte (crcStep8 0#32), crcStep8_eq_table]
  rfl

/-! ### The fixed points of a zero byte

`x ^^^ x >>> 1` determines `x`, so the feedback bit alone gives the fixed point of a round, and with the polynomial fed
back there is none. In characteristic two eight rounds have no other fixed points than one round. -/

/-- A word XORed with itself shifted right by `k`. -/
def xorShift (k : Nat) (x : Word) : Word := x ^^^ x >>> k

theorem xorShift_xorShift (k : Nat) (x : Word) : xorShift k (xorShift k x) = xorShift (k + k) x := by
  simp only [xorShift, BitVec.ushiftRight_xor_distrib, BitVec.shiftRight_add]
  rw [BitVec.xor_assoc, ← BitVec.xor_assoc (x >>> k), BitVec.xor_self, BitVec.zero_xor]

/-- The inverse of `xorShift 1`, by doubling the shift until it leaves nothing of a word. -/
def xorShiftInv (y : Word) : Word := xorShift 16 (xorShift 8 (xorShift 4 (xorShift 2 (xorShift 1 y))))

theorem xorShiftInv_xorShift (x : Word) : xorShiftInv (xorShift 1 x) = x := by
  simp only [xorShiftInv, xorShift_xorShift, Nat.reduceAdd]
  rw [xorShift, BitVec.ushiftRight_eq_zero (Nat.le_refl 32), BitVec.xor_zero]

/-- One round leaves zero alone: with the polynomial fed back, the fixed point would have to be even. -/
theorem eq_zero_of_crcRound_eq {x : Word} (h : crcRound x = x) : x = 0#32 := by
  have hshift : xorShift 1 x = crcFeedback x := by
    rw [crcRound_eq] at h
    calc x ^^^ x >>> 1 = (x >>> 1 ^^^ crcFeedback x) ^^^ x >>> 1 := by rw [h]
      _ = (x >>> 1 ^^^ x >>> 1) ^^^ crcFeedback x := by ac_rfl
      _ = crcFeedback x := by rw [BitVec.xor_self, BitVec.zero_xor]
  have hx : x = xorShiftInv (crcFeedback x) := by rw [← hshift, xorShiftInv_xorShift]
  cases hlow : x.getLsbD 0 with
  | false =>
    have hzero : crcFeedback x = 0#32 := if_neg (Bool.eq_false_iff.1 hlow)
    rw [hx, hzero]
    decide
  | true =>
    have hpoly : crcFeedback x = Config.crcPoly := if_pos hlow
    rw [hx, hpoly] at hlow
    exact absurd hlow (by decide)

/-- Where `k` rounds leave no word but zero alone, neither do twice as many: what `k` rounds add to a fixed point of
`2 * k` rounds is a fixed point of `k` rounds. -/
theorem eq_zero_of_crcRounds_double {k : Nat} (hk : ∀ x, crcRounds k x = x → x = 0#32) {x : Word}
    (h : crcRounds (k + k) x = x) : x = 0#32 := by
  rw [crcRounds_add] at h
  have hdiff : crcRounds k (crcRounds k x ^^^ x) = crcRounds k x ^^^ x := by
    rw [crcRounds_xor, h, BitVec.xor_comm]
  exact hk x (BitVec.xor_eq_zero_iff.1 (hk _ hdiff))

theorem eq_zero_of_crcStep8_zero_eq {a : Word} (h : crcStep8 a 0x00#8 = a) : a = 0#32 := by
  have one : ∀ x, crcRounds 1 x = x → x = 0#32 := fun _ => eq_zero_of_crcRound_eq
  have two : ∀ x, crcRounds 2 x = x → x = 0#32 := fun _ => eq_zero_of_crcRounds_double one
  have four : ∀ x, crcRounds 4 x = x → x = 0#32 := fun _ => eq_zero_of_crcRounds_double two
  rw [crcStep8, BitVec.setWidth_zero, BitVec.xor_zero] at h
  exact eq_zero_of_crcRounds_double four h

/-! ### The commands -/

/-- The frame of crc.init and crc.byte: `ACC` and the response are all they write (R82, R83). -/
theorem changesOnlyAcc_setAcc (s : State) (v : Word) (r : Option Response) :
    ChangesOnlyAcc s ((s.setAcc v).setOutstanding r) :=
  ⟨rfl, rfl, fun _ => rfl, fun _ => rfl, ⟨rfl, rfl, rfl, rfl⟩, rfl⟩

theorem changesNothing_setOutstanding (s : State) (r : Option Response) : ChangesNothing s (s.setOutstanding r) :=
  ⟨SameBlock.refl s, rfl, rfl, rfl, rfl⟩

theorem exec_crcRes (s : State) : exec .crcRes s = respond .ok (s.acc ^^^ 0xFFFFFFFF#32) s := rfl

/-- crc.res answers the complement of the `ACC` it finds (R84). -/
theorem exec_crcRes_of_acc {s : State} {v : Word} (h : s.acc = v) :
    ∃ t, exec .crcRes s = .next t ∧ t.outstanding = some ⟨.ok, v ^^^ 0xFFFFFFFF#32⟩ :=
  ⟨_, exec_crcRes s, by rw [h]; rfl⟩

/-- The check value of the CRC: `Crc32` of the text "123456789" (R84). -/
theorem crc32_check : crc32 [0x31#8, 0x32#8, 0x33#8, 0x34#8, 0x35#8, 0x36#8, 0x37#8, 0x38#8, 0x39#8] =
    0xCBF43926#32 := by decide +kernel

/-- Settles O7: `ACC` is overwritten, and nothing else is written. -/
theorem crcInitResetsTheAccumulator : Obligations.CrcInitResetsTheAccumulator :=
  ⟨decodeInvertsEncode .crcInit, illegalWhere_unusedFieldSet .crcInit,
    fun s => ⟨_, rfl, rfl, rfl, changesOnlyAcc_setAcc s _ _⟩⟩

/-- Settles O8: the byte is folded into `ACC`; eight rounds leave no `ACC` but zero alone. -/
theorem crcByteFoldsOneByte : Obligations.CrcByteFoldsOneByte :=
  ⟨fun imm => decode_eq_ok_iff.2 (encode_crcByte imm), illegalWhere_unusedFieldSet .crcByte,
    fun _ s => ⟨_, rfl, rfl, rfl, changesOnlyAcc_setAcc s _ _⟩, fun _ => eq_zero_of_crcStep8_zero_eq, by decide,
    by decide⟩

/-- Settles O9: only the response is written, and it is the complement of `ACC`. -/
theorem crcResAnswersTheComplement : Obligations.CrcResAnswersTheComplement := by
  refine ⟨decodeInvertsEncode .crcRes, illegalWhere_unusedFieldSet .crcRes, fun s => ?_,
    fun _ h => exec_crcRes_of_acc h, fun s h => ?_⟩
  · exact ⟨_, exec_crcRes s, rfl, changesNothing_setOutstanding s _, rfl, rfl⟩
  · obtain ⟨t, ht, hr⟩ := exec_crcRes_of_acc h
    exact ⟨t, ht, hr.trans (by rw [← crc32_check]; rfl)⟩

/-! ### Transactions -/

theorem map_encode_crcByte (bytes : List Byte) :
    (bytes.map Instr.crcByte).map encode = bytes.map (fun b => 0x11000000#32 ||| b.setWidth 32) := by
  rw [List.map_map]
  exact List.map_congr_left fun b _ => encode_crcByte b

/-- The transactions of crc.byte for each byte fold the bytes into `ACC`, by induction on the bytes; the commands after
them are still to come. -/
theorem runSteps_crcBytes {bytes : List Byte} {is : List Instr} {s : State} {rest : List HostEvent}
    (hready : s.ready = true) (hscript : s.script = transactions ((bytes.map Instr.crcByte ++ is).map encode) ++ rest) :
    ∃ t, runSteps (2 * bytes.length) s = .next t ∧ t.ready = true ∧
      t.script = transactions (is.map encode) ++ rest ∧ t.acc = bytes.foldl crcStep8 s.acc := by
  induction bytes generalizing s with
  | nil => exact ⟨s, rfl, hready, hscript, rfl⟩
  | cons b bytes ih =>
    obtain ⟨u, hsteps, huready, huscript, huacc, -⟩ :=
      runSteps_transaction_of_ok (u := s.setAcc (crcStep8 s.acc b)) hready hscript rfl
    obtain ⟨t, hsteps', htready, htscript, htacc⟩ := ih huready huscript
    refine ⟨t, (runSteps_add hsteps (2 * bytes.length)).trans hsteps', htready, htscript, ?_⟩
    rw [htacc, huacc]
    rfl

/-- The transaction of crc.res delivers the complement of `ACC` to the host (R84). -/
theorem runSteps_crcRes {s : State} {rest : List HostEvent} (hready : s.ready = true)
    (hscript : s.script = transactions [encode Instr.crcRes] ++ rest) :
    ∃ t, runSteps 2 s = .next t ∧ t.script = rest ∧
      t.received.getLast? = some ⟨.ok, s.acc ^^^ 0xFFFFFFFF#32⟩ := by
  have hrun : runWord (encode .crcRes) (s.setScript rest) =
      .next ((s.setScript rest).setOutstanding (some ⟨.ok, s.acc ^^^ 0xFFFFFFFF#32⟩)) :=
    runWord_of_ok _ (decodeInvertsEncode .crcRes)
  obtain ⟨r, t, hr, hsteps, -, htscript, hreceived, -⟩ :=
    transactionsAreSequential s _ (encode .crcRes) [] rest hready hscript hrun
  refine ⟨t, hsteps, htscript, ?_⟩
  rw [hreceived, List.getLast?_concat]
  exact hr.symm

/-- The transactions of crc.byte for each byte and crc.res, from an `ACC` that holds `CRC_INIT`, deliver `Crc32` (R81,
R85). -/
theorem runSteps_crcSequence {bytes : List Byte} {s : State} {rest : List HostEvent} (hready : s.ready = true)
    (hscript : s.script = transactions ((bytes.map Instr.crcByte ++ [Instr.crcRes]).map encode) ++ rest)
    (hacc : s.acc = Config.crcInit) :
    ∃ t, runSteps (2 * (bytes.length + 1)) s = .next t ∧ t.script = rest ∧
      t.received.getLast? = some ⟨.ok, crc32 bytes⟩ := by
  obtain ⟨u, hsteps, huready, huscript, huacc⟩ := runSteps_crcBytes hready hscript
  obtain ⟨t, hsteps', htscript, hlast⟩ := runSteps_crcRes huready huscript
  refine ⟨t, ?_, htscript, ?_⟩
  · rw [Nat.mul_succ, Nat.add_comm, runSteps_add hsteps, hsteps']
  · rw [hlast, huacc, hacc]
    rfl

/-- The words of crc.byte for each byte and crc.res. -/
theorem map_encode_crcSequence (bytes : List Byte) : (bytes.map Instr.crcByte ++ [Instr.crcRes]).map encode =
    bytes.map (fun b => 0x11000000#32 ||| b.setWidth 32) ++ [0x12000000#32] := by
  rw [List.map_append, map_encode_crcByte]
  rfl

/-- Settles O12: crc.init puts `CRC_INIT` into `ACC`, which is there after reset too; the sequence does the rest. -/
theorem crcOfEveryByteSequence : Obligations.CrcOfEveryByteSequence := by
  constructor
  · intro bytes s rest hready hscript
    rw [List.cons_append, ← map_encode_crcSequence] at hscript
    obtain ⟨u, hsteps, huready, huscript, huacc, -⟩ := runSteps_transaction_of_ok (i := .crcInit)
      (u := s.setAcc Config.crcInit) hready hscript rfl
    obtain ⟨t, hsteps', htscript, hlast⟩ := runSteps_crcSequence huready huscript huacc
    exact ⟨t, (runSteps_add hsteps (2 * (bytes.length + 1))).trans hsteps', htscript, hlast⟩
  · intro bytes accepts rest
    rw [← map_encode_crcSequence]
    exact runSteps_crcSequence rfl rfl rfl

end Sys2Proof.Machine
end

section
/-! PROOFS. Buffer access (41_buffers.md): the writes and reads of an entry and of a length, and the lengths that
txt.enc and txt.dec leave. -/

namespace Sys2Proof.Machine

/-! ### Words -/

/-- A word with an `idx` operand alone (R61). -/
theorem packWord_index_eq_or (op idx : Byte) :
    packWord op idx 0#8 0#8 = packWord op 0#8 0#8 0#8 ||| idx.setWidth 32 <<< 16 := by
  rw [packWord_eq_or op idx 0#8, BitVec.setWidth_zero, BitVec.or_zero]

theorem encode_binRd (idx : Byte) : encode (.binRd idx) = 0x21000000#32 ||| idx.setWidth 32 <<< 16 :=
  packWord_index_eq_or 0x21#8 idx

theorem encode_chrRd (idx : Byte) : encode (.chrRd idx) = 0x29000000#32 ||| idx.setWidth 32 <<< 16 :=
  packWord_index_eq_or 0x29#8 idx

/-! ### Frames -/

theorem failsWith_of_eq_raiseStatus {st : Status} {s : State} {o : Result} (h : o = raiseStatus st s) :
    FailsWith st s.draws s o := h ▸ raiseStatus_failsWith st s

section
variable (s : State) (r : Option Response)

/-- The frame of a read of an entry: the draws and the response are no state of the block (R101, R105). -/
theorem changesNothing_setDraws (d : Nat) : ChangesNothing s ((s.setDraws d).setOutstanding r) :=
  changesNothing_setOutstanding (s.setDraws d) r

theorem changesOnlyBinEntry_write (i : Nat) (v : Byte) :
    ChangesOnlyBinEntry i s ((s.setBin (s.bin.write i v)).setOutstanding r) :=
  ⟨rfl, rfl, rfl, fun _ hj => s.bin.entry_write_of_ne v hj, fun _ => rfl, ⟨rfl, rfl, rfl, rfl⟩, rfl⟩

theorem changesOnlyChrEntry_write (i : Nat) (v : Byte) :
    ChangesOnlyChrEntry i s ((s.setChr (s.chr.write i v)).setOutstanding r) :=
  ⟨rfl, rfl, rfl, fun _ => rfl, fun _ hj => s.chr.entry_write_of_ne v hj, ⟨rfl, rfl, rfl, rfl⟩, rfl⟩

theorem changesOnlyBinLen_setBinLen (n : Length) : ChangesOnlyBinLen s ((s.setBinLen n).setOutstanding r) :=
  ⟨rfl, rfl, fun _ => rfl, fun _ => rfl, ⟨rfl, rfl, rfl, rfl⟩, rfl⟩

theorem changesOnlyChrLen_setChrLen (n : Length) : ChangesOnlyChrLen s ((s.setChrLen n).setOutstanding r) :=
  ⟨rfl, rfl, fun _ => rfl, fun _ => rfl, ⟨rfl, rfl, rfl, rfl⟩, rfl⟩

end

/-! ### Entries -/

/-- Settles O14: within the buffer the entry is written and every other one kept; from 45 on `RANGE` is raised. -/
theorem binWrWritesOneEntry : Obligations.BinWrWritesOneEntry :=
  ⟨fun idx imm => decode_eq_ok_iff.2 (encode_binWr idx imm), illegalWhere_unusedFieldSet .binWr,
    fun _ imm s h => ⟨_, execBinWr_of_lt imm s h, rfl, s.bin.entry_write_self _ imm,
      changesOnlyBinEntry_write s _ _ imm⟩,
    fun _ imm s h => failsWith_of_eq_raiseStatus (execBinWr_of_ge imm s h)⟩

/-- Settles O18: within the buffer the entry is written and every other one kept; from 61 on `RANGE` is raised. -/
theorem chrWrWritesOneEntry : Obligations.ChrWrWritesOneEntry :=
  ⟨fun idx imm => decode_eq_ok_iff.2 (encode_chrWr idx imm), illegalWhere_unusedFieldSet .chrWr,
    fun _ imm s h => ⟨_, execChrWr_of_lt imm s h, rfl, s.chr.entry_write_self _ imm,
      changesOnlyChrEntry_write s _ _ imm⟩,
    fun _ imm s h => failsWith_of_eq_raiseStatus (execChrWr_of_ge imm s h)⟩

/-- Settles O15: a written entry is answered as it is, an unwritten one is the next draw; nothing is written. -/
theorem binRdAnswersOneEntry : Obligations.BinRdAnswersOneEntry :=
  ⟨fun idx => decode_eq_ok_iff.2 (encode_binRd idx), illegalWhere_unusedFieldSet .binRd,
    fun _ s _ h hentry => ⟨_, exec_binRd_of_written h hentry, rfl, changesNothing_setOutstanding s _, rfl⟩,
    fun _ s h hentry => ⟨_, exec_binRd_of_unwritten h hentry, rfl, changesNothing_setDraws s _ _, rfl⟩,
    fun _ s h => failsWith_of_eq_raiseStatus (execBinRd_of_ge s h)⟩

/-- Settles O19: a written entry is answered as it is, an unwritten one is the next draw; nothing is written. -/
theorem chrRdAnswersOneEntry : Obligations.ChrRdAnswersOneEntry :=
  ⟨fun idx => decode_eq_ok_iff.2 (encode_chrRd idx), illegalWhere_unusedFieldSet .chrRd,
    fun _ s _ h hentry => ⟨_, exec_chrRd_of_written h hentry, rfl, changesNothing_setOutstanding s _, rfl⟩,
    fun _ s h hentry => ⟨_, exec_chrRd_of_unwritten h hentry, rfl, changesNothing_setDraws s _ _, rfl⟩,
    fun _ s h => failsWith_of_eq_raiseStatus (execChrRd_of_ge s h)⟩

/-! ### Lengths -/

/-- Settles O16: a length up to 45 fits the 6-bit register and is all that is written; above 45 `RANGE` is raised. -/
theorem binLenSetsThePayloadLength : Obligations.BinLenSetsThePayloadLength :=
  ⟨fun imm => decode_eq_ok_iff.2 (encode_binLen imm), illegalWhere_unusedFieldSet .binLen,
    fun _ s h => ⟨_, execBinLen_of_le s h, rfl, toNat_lengthOperand (by omega), changesOnlyBinLen_setBinLen s _ _⟩,
    fun _ s h => failsWith_of_eq_raiseStatus (execBinLen_of_gt s h)⟩

/-- A txt.dec that fails a check of its line writes no state, and its draws are those of the whole line (R125, R151). -/
theorem execTxtDec_failsWith {s : State} (hle : s.chrLen.toNat ≤ 61)
    (hne : lineStatus s.acceptSpace (lineRead s).1 ≠ .ok) :
    FailsWith (lineStatus s.acceptSpace (lineRead s).1) (s.draws + s.chr.unwrittenBelow s.chrLen.toNat) s
      (execTxtDec s) := by
  refine ⟨_, execTxtDec_of_ne_ok hle hne, rfl, changesNothing_setDraws s _ _, ?_⟩
  rw [State.setOutstanding_draws, State.setDraws_draws, lineRead_eq]

/-- txt.dec of an empty line raises `DEC_LENGTH` and answers no draw (R125). -/
theorem execTxtDec_of_empty {s : State} (h : s.chrLen = 0#6) : FailsWith .decLength s.draws s (execTxtDec s) := by
  have hlen : s.chrLen.toNat = 0 := by rw [h]; rfl
  have hst : lineStatus s.acceptSpace (lineRead s).1 = .decLength := by
    rw [lineStatus, if_pos ((length_lineRead s).trans hlen)]
  have hfails := execTxtDec_failsWith (s := s) (by omega) (by rw [hst]; decide)
  rwa [hst, hlen] at hfails

/-- Settles O20: a length up to 61 fits the 6-bit register and is all that is written, above 61 `RANGE` is raised; the
length 0 leaves an empty line. -/
theorem chrLenSetsTheLineLength : Obligations.ChrLenSetsTheLineLength := by
  refine ⟨fun imm => decode_eq_ok_iff.2 (encode_chrLen imm), illegalWhere_unusedFieldSet .chrLen, fun imm s h => ?_,
    fun _ s h => failsWith_of_eq_raiseStatus (execChrLen_of_gt s h)⟩
  refine ⟨_, execChrLen_of_le s h, rfl, toNat_lengthOperand (by omega), changesOnlyChrLen_setChrLen s _ _, ?_⟩
  rintro rfl
  exact execTxtDec_of_empty rfl

theorem exec_binGetlen (s : State) : exec .binGetlen s = respond .ok (s.binLen.setWidth 32) s := rfl

theorem exec_chrGetlen (s : State) : exec .chrGetlen s = respond .ok (s.chrLen.setWidth 32) s := rfl

/-- Character `j` of the line is what txt.dec reads from entry `j` (R26, R125). -/
theorem getD_lineRead {s : State} {j : Nat} (h : j < s.chrLen.toNat) :
    (lineRead s).1.getD j 0#8 = readValue s.chr s.draws j := by
  rw [List.getD_eq_getElem _ _ (by simpa using h)]
  simp [lineRead_eq]

/-- The count of a line that is not empty is that of the read of its first character (R125). -/
theorem lineCount_lineRead {s : State} (h : s.chrLen.toNat ≠ 0) :
    lineCount (lineRead s).1 = (decChar (readValue s.chr s.draws 0)).toNat := by
  rw [lineCount, getD_lineRead (by omega)]

/-- txt.dec leaves the count of its line in `BIN_LEN` when it succeeds, and the old length when it fails (R125). -/
theorem execTxtDec_binLen {s t : State} {r : Response} (h : execTxtDec s = .next t) (hr : t.outstanding = some r) :
    t.binLen = if r.status = .ok then decChar (readValue s.chr s.draws 0) else s.binLen := by
  obtain ⟨-, ⟨hok, rfl⟩ | ⟨hne, rfl⟩⟩ := execTxtDec_next h
  · obtain rfl := Option.some.inj hr
    obtain ⟨hlen, -, -, -⟩ := (lineStatus_eq_ok_iff _ _).1 hok
    rw [length_lineRead] at hlen
    rw [if_pos rfl, State.setOutstanding_binLen, storePayload_binLen, length_linePayload, lineCount_lineRead hlen,
      lengthOfCount, BitVec.ofNat_toNat, BitVec.setWidth_eq]
  · obtain rfl := Option.some.inj hr
    exact (if_neg hne).symm

/-- Settles O17: only the response is written, and it is `BIN_LEN`, which is 0 at reset and which txt.dec leaves as
`execTxtDec_binLen` says. -/
theorem binGetlenAnswersThePayloadLength : Obligations.BinGetlenAnswersThePayloadLength := by
  refine ⟨decodeInvertsEncode .binGetlen, illegalWhere_unusedFieldSet .binGetlen,
    fun s => ⟨_, exec_binGetlen s, rfl, changesNothing_setOutstanding s _, rfl⟩,
    fun _ => ⟨_, exec_binGetlen _, rfl⟩, fun s t r h hr => ⟨_, exec_binGetlen t, ?_⟩⟩
  rw [State.setOutstanding_outstanding, execTxtDec_binLen h hr, apply_ite (BitVec.setWidth 32)]

/-- txt.enc leaves the frame length of its payload in `CHR_LEN` (R124). -/
theorem execTxtEnc_chrLen {s t : State} (h : execTxtEnc s = .next t) :
    t.chrLen.toNat = frameLength s.binLen.toNat := by
  have hle := execTxtEnc_next h
  have hframe := frameLength_le hle
  rw [execTxtEnc_of_le hle] at h
  rw [respond_eq_next h, State.setOutstanding_chrLen, storeFrame_chrLen, length_encodeFrame, length_payloadRead,
    toNat_lengthOfCount (by omega)]

/-- Settles O21: only the response is written, and it is `CHR_LEN`, in which txt.enc leaves the frame length. -/
theorem chrGetlenAnswersTheLineLength : Obligations.ChrGetlenAnswersTheLineLength := by
  refine ⟨decodeInvertsEncode .chrGetlen, illegalWhere_unusedFieldSet .chrGetlen,
    fun s => ⟨_, exec_chrGetlen s, rfl, changesNothing_setOutstanding s _, rfl⟩,
    fun s t h => ⟨_, exec_chrGetlen t, ?_⟩⟩
  have hlen : t.chrLen.setWidth 32 = BitVec.ofNat 32 (frameLength s.binLen.toNat) := by
    rw [← execTxtEnc_chrLen h, BitVec.ofNat_toNat]
  rw [State.setOutstanding_outstanding, hlen]
  rfl

end Sys2Proof.Machine
end

section
/-! PROOFS. The text frame (42_textframe.md): the characters and their inverse, the frame that txt.enc writes, the
checks of txt.dec and the payload it writes, and how the two directions go together. -/

namespace Sys2Proof.Machine

/-! ### Characters -/

theorem toNat_encChar {g : Group} (h : g ≠ 0#6) : (encChar g).toNat = g.toNat + 0x20 := by
  rw [encChar, if_neg h, Config.chrOffset, BitVec.toNat_add, BitVec.toNat_setWidth, BitVec.toNat_ofNat]
  omega

/-- The backtick of group 0 is the greatest character; a group from 1 to 63 gives `0x21` to `0x5F` (R120). -/
theorem encChar_bounds (g : Group) : 0x21 ≤ (encChar g).toNat ∧ (encChar g).toNat ≤ 0x60 := by
  by_cases h : g = 0#6
  · subst h
    decide
  · have hpos : g.toNat ≠ 0 := fun h0 => h (BitVec.eq_of_toNat_eq h0)
    rw [toNat_encChar h]
    omega

theorem encChar_ne_space (g : Group) : encChar g ≠ 0x20#8 :=
  fun h => absurd (encChar_bounds g).1 (by rw [h]; decide)

/-- Settles O22: the bounds of a character leave out the space. -/
theorem encodedCharactersArePrintable : Obligations.EncodedCharactersArePrintable :=
  ⟨fun _ => rfl, encChar_bounds, encChar_ne_space⟩

/-- The count characters of the payloads that are not empty (R122). -/
theorem encChar_ofNat {n : Nat} (h1 : 1 ≤ n) (h45 : n ≤ 45) :
    encChar (BitVec.ofNat 6 n) = BitVec.ofNat 8 (n + 0x20) := by
  have hn : (BitVec.ofNat 6 n).toNat = n := toNat_lengthOfCount (by omega)
  have hne : BitVec.ofNat 6 n ≠ 0#6 := fun h0 => by
    rw [h0, BitVec.toNat_ofNat] at hn
    omega
  apply BitVec.eq_of_toNat_eq
  rw [toNat_encChar hne, hn, BitVec.toNat_ofNat, Nat.mod_eq_of_lt (by omega)]

theorem validChar_iff (accepts : Bool) (c : Byte) : validChar accepts c = true ↔
    (0x21 ≤ c.toNat ∧ c.toNat ≤ 0x60) ∨ (c.toNat = 0x20 ∧ accepts = true) := by
  simp [validChar, BitVec.le_def, BitVec.toNat_eq]

/-- No valid character lies below the offset, so `c - 0x20` does not wrap (R121). -/
theorem toNat_decChar_of_validChar {accepts : Bool} {c : Byte} (h : validChar accepts c = true) :
    (decChar c).toNat = (c.toNat - 0x20) % 64 := by
  have hc : 0x20 ≤ c.toNat := by
    obtain ⟨h21, -⟩ | ⟨h20, -⟩ := (validChar_iff accepts c).1 h <;> omega
  rw [decChar, Config.chrOffset, BitVec.toNat_setWidth, BitVec.toNat_sub, BitVec.toNat_ofNat]
  omega

/-! ### Triples -/

/-- The cut of three bytes into four groups (R123). -/
theorem groupOf_append (a b c : Byte) :
    groupOf (a ++ b ++ c) 0 = (a >>> 2).setWidth 6 ∧
    groupOf (a ++ b ++ c) 1 = ((a &&& 0x03#8) <<< 4 ||| b >>> 4).setWidth 6 ∧
    groupOf (a ++ b ++ c) 2 = ((b &&& 0x0F#8) <<< 2 ||| c >>> 6).setWidth 6 ∧
    groupOf (a ++ b ++ c) 3 = (c &&& 0x3F#8).setWidth 6 := by
  refine ⟨?_, ?_, ?_, ?_⟩
  all_goals
    apply BitVec.eq_of_getLsbD_eq
    intro i hi
    interval_cases i <;> simp only [groupOf, BitVec.getLsbD_append, BitVec.getLsbD_extractLsb'] <;> simp

/-- The cut of four groups into three bytes: byte `j` takes its bits from groups `j` and `j + 1` alone (R125). -/
theorem tripleByte_append (a b c d : Group) :
    tripleByte (a ++ b ++ c ++ d) 0 = a ++ b.extractLsb' 4 2 ∧
    tripleByte (a ++ b ++ c ++ d) 1 = b.extractLsb' 0 4 ++ c.extractLsb' 2 4 ∧
    tripleByte (a ++ b ++ c ++ d) 2 = c.extractLsb' 0 2 ++ d := by
  refine ⟨?_, ?_, ?_⟩
  all_goals
    apply BitVec.eq_of_getLsbD_eq
    intro i hi
    interval_cases i <;> simp only [tripleByte, BitVec.getLsbD_append, BitVec.getLsbD_extractLsb'] <;> simp

/-! ### The status of a line -/

section
variable {accepts : Bool} {line : List Byte}

theorem lineStatus_of_invalid {c : Byte} (hc : c ∈ line) (h : validChar accepts c = false) :
    lineStatus accepts line = .decChar := by
  have hany : (line.any fun c => !validChar accepts c) = true := List.any_eq_true.2 ⟨c, hc, by rw [h]; rfl⟩
  rw [lineStatus, if_neg (List.length_pos_of_mem hc).ne', if_pos hany]

/-- The checks that are left for a line of valid characters. -/
theorem lineStatus_of_valid (hne : line.length ≠ 0) (hvalid : ∀ c ∈ line, validChar accepts c = true) :
    lineStatus accepts line =
      if 45 < lineCount line then .decCount
      else if line.length ≠ frameLength (lineCount line) then .decLength else .ok := by
  have hany : ¬ (line.any fun c => !validChar accepts c) = true := by simpa using hvalid
  rw [lineStatus, if_neg hne, if_neg hany]
  rfl

theorem lineStatus_of_count_gt (hne : line.length ≠ 0) (hvalid : ∀ c ∈ line, validChar accepts c = true)
    (hcount : 45 < lineCount line) : lineStatus accepts line = .decCount := by
  rw [lineStatus_of_valid hne hvalid, if_pos hcount]

theorem lineStatus_of_length_ne (hne : line.length ≠ 0) (hvalid : ∀ c ∈ line, validChar accepts c = true)
    (hcount : lineCount line ≤ 45) (hlen : line.length ≠ frameLength (lineCount line)) :
    lineStatus accepts line = .decLength := by
  rw [lineStatus_of_valid hne hvalid, if_neg (Nat.not_lt.2 hcount), if_pos hlen]

end

section
variable {s : State}

theorem forall_mem_lineRead {P : Byte → Prop} :
    (∀ c ∈ (lineRead s).1, P c) ↔ ∀ j < s.chrLen.toNat, P (readValue s.chr s.draws j) := by
  simp [lineRead_eq]

theorem readValue_mem_lineRead {j : Nat} (hj : j < s.chrLen.toNat) : readValue s.chr s.draws j ∈ (lineRead s).1 :=
  forall_mem_lineRead.1 (fun _ hc => hc) j hj

theorem execTxtDec_failsWith_of_status {st : Status} (hle : s.chrLen.toNat ≤ 61)
    (hst : lineStatus s.acceptSpace (lineRead s).1 = st) (hne : st ≠ .ok) :
    FailsWith st (s.draws + s.chr.unwrittenBelow s.chrLen.toNat) s (execTxtDec s) := by
  subst hst
  exact execTxtDec_failsWith hle hne

theorem execTxtDec_of_invalid {j : Nat} (hle : s.chrLen.toNat ≤ 61) (hj : j < s.chrLen.toNat)
    (h : validChar s.acceptSpace (readValue s.chr s.draws j) = false) :
    FailsWith .decChar (s.draws + s.chr.unwrittenBelow s.chrLen.toNat) s (execTxtDec s) :=
  execTxtDec_failsWith_of_status hle (lineStatus_of_invalid (readValue_mem_lineRead hj) h) (by decide)

end

/-- Settles O23: the range of a valid character makes `dec_char` the subtraction of the rule, and one invalid character
decides the status of its line. -/
theorem validCharactersAndTheirInverse : Obligations.ValidCharactersAndTheirInverse :=
  ⟨validChar_iff, fun _ _ => toNat_decChar_of_validChar, decChar_encChar,
    fun _ _ hle hj h => execTxtDec_of_invalid hle hj h⟩

/-! ### txt.enc -/

theorem exists_frameChar_eq_encChar (payload : List Byte) (i : Nat) : ∃ g, frameChar payload i = encChar g := by
  rw [frameChar]
  split_ifs
  · exact ⟨_, rfl⟩
  · exact ⟨_, rfl⟩

/-- The state that txt.enc leaves (R124). -/
def afterTxtEnc (s : State) : State :=
  (storeFrame (encodeFrame (payloadRead s).1) (s.setDraws (payloadRead s).2)).setOutstanding (some ⟨.ok, 0#32⟩)

/-- The padded payload that txt.enc reads (R123, R26). -/
theorem paddedByte_payloadRead (s : State) (i : Nat) : paddedByte (payloadRead s).1 i =
    if i < s.binLen.toNat then readValue s.bin s.draws i else 0x00#8 := by
  rw [paddedByte, payloadRead_eq]
  split_ifs with h
  · rw [List.getD_eq_getElem _ _ (by simpa using h)]
    simp
  · rw [List.getD_eq_default _ _ (by simpa using h)]

section
variable {s : State}

theorem execTxtEnc_eq_afterTxtEnc (h : s.binLen.toNat ≤ 45) : execTxtEnc s = .next (afterTxtEnc s) :=
  execTxtEnc_of_le h

theorem afterTxtEnc_chrLen (h : s.binLen.toNat ≤ 45) : (afterTxtEnc s).chrLen.toNat = frameLength s.binLen.toNat :=
  execTxtEnc_chrLen (execTxtEnc_eq_afterTxtEnc h)

theorem afterTxtEnc_entry_of_lt {j : Nat} (h : j < frameLength s.binLen.toNat) :
    (afterTxtEnc s).chr.entry j = some (frameChar (payloadRead s).1 j) := by
  rw [afterTxtEnc, State.setOutstanding_chr, storeFrame_chr, Memory.entry_writeFrom, length_encodeFrame,
    length_payloadRead, if_pos (by omega), Nat.sub_zero, getD_encodeFrame (by rwa [length_payloadRead])]

theorem afterTxtEnc_entry_of_ge {j : Nat} (h : frameLength s.binLen.toNat ≤ j) :
    (afterTxtEnc s).chr.entry j = s.chr.entry j := by
  rw [afterTxtEnc, State.setOutstanding_chr, storeFrame_chr, Memory.entry_writeFrom, length_encodeFrame,
    length_payloadRead, if_neg (by omega), State.setDraws_chr]

/-- The four characters of triple `k` stand in the frame (R122, R123). -/
theorem afterTxtEnc_entry_triple {k j : Nat} (hk : k < tripleCount s.binLen.toNat) (hj : j < 4) :
    (afterTxtEnc s).chr.entry (1 + j + 4 * k) = some (encChar (groupOf (tripleOf (payloadRead s).1 k) j)) := by
  rw [afterTxtEnc_entry_of_lt (by rw [frameLength]; omega), frameChar_triple _ _ hj]

end

/-- Settles O24: the payload that txt.enc reads is the padded one of the rule, and `groupOf_append` is the cut of each
of its triples. -/
theorem txtEncWritesTheFrame : Obligations.TxtEncWritesTheFrame := by
  refine ⟨decodeInvertsEncode .txtEnc, illegalWhere_unusedFieldSet .txtEnc, fun _ => encChar_ofNat, rfl, ?_, ?_⟩
  · rintro a b c t rfl
    exact groupOf_append a b c
  · rintro s n p rfl hle hp
    obtain rfl : p = paddedByte (payloadRead s).1 := funext fun i => (hp i).trans (paddedByte_payloadRead s i).symm
    refine ⟨_, execTxtEnc_eq_afterTxtEnc hle, rfl, afterTxtEnc_chrLen hle, ?_, fun k hk => ?_,
      fun _ => afterTxtEnc_entry_of_ge, rfl, rfl, fun _ => rfl, ⟨rfl, rfl, rfl, rfl⟩,
      congrArg Prod.snd (payloadRead_eq s)⟩
    · rw [afterTxtEnc_entry_of_lt (frameLength_pos _), frameChar_zero, length_payloadRead]
    · obtain ⟨h0, h1, h2, h3⟩ := groupOf_append (paddedByte (payloadRead s).1 (3 * k))
        (paddedByte (payloadRead s).1 (3 * k + 1)) (paddedByte (payloadRead s).1 (3 * k + 2))
      rw [← h0, ← h1, ← h2, ← h3]
      exact ⟨afterTxtEnc_entry_triple (j := 0) hk (by decide), afterTxtEnc_entry_triple (j := 1) hk (by decide),
        afterTxtEnc_entry_triple (j := 2) hk (by decide), afterTxtEnc_entry_triple (j := 3) hk (by decide)⟩

/-! ### txt.dec -/

/-- The state that txt.dec leaves when its line passes the checks (R125). -/
def afterTxtDec (s : State) : State :=
  (storePayload (linePayload (lineRead s).1) (s.setDraws (lineRead s).2)).setOutstanding (some ⟨.ok, 0#32⟩)

section
variable {s : State}

theorem execTxtDec_eq_afterTxtDec (hle : s.chrLen.toNat ≤ 61)
    (hok : lineStatus s.acceptSpace (lineRead s).1 = .ok) : execTxtDec s = .next (afterTxtDec s) :=
  execTxtDec_of_ok hle hok

theorem afterTxtDec_binLen : (afterTxtDec s).binLen = lengthOfCount (lineCount (lineRead s).1) :=
  congrArg lengthOfCount (length_linePayload _)

theorem afterTxtDec_entry_of_ge {j : Nat} (h : lineCount (lineRead s).1 ≤ j) :
    (afterTxtDec s).bin.entry j = s.bin.entry j := by
  rw [afterTxtDec, State.setOutstanding_bin, storePayload_bin, Memory.entry_writeFrom, length_linePayload,
    if_neg (by omega), State.setDraws_bin]

/-- Byte `i` of triple `k` is entry `3k + i`, within the count (R125). -/
theorem afterTxtDec_entry_triple {k i : Nat} (hi : i < 3) (h : 3 * k + i < lineCount (lineRead s).1) :
    (afterTxtDec s).bin.entry (3 * k + i) = some (tripleByte (lineTriple (lineRead s).1 k) i) := by
  rw [afterTxtDec, State.setOutstanding_bin, storePayload_bin, Memory.entry_writeFrom, length_linePayload,
    if_pos (by omega), Nat.sub_zero, getD_linePayload h, show (3 * k + i) / 3 = k by omega,
    show (3 * k + i) % 3 = i by omega]

theorem lineTriple_lineRead {k : Nat} (h : 4 + 4 * k < s.chrLen.toNat) : lineTriple (lineRead s).1 k =
    decChar (readValue s.chr s.draws (1 + 4 * k)) ++ decChar (readValue s.chr s.draws (2 + 4 * k)) ++
      decChar (readValue s.chr s.draws (3 + 4 * k)) ++ decChar (readValue s.chr s.draws (4 + 4 * k)) := by
  rw [lineTriple, lineGroup, lineGroup, lineGroup, lineGroup, getD_lineRead (by omega), getD_lineRead (by omega),
    getD_lineRead (by omega), getD_lineRead h]

end

/-- Settles O25: `lineStatus` is the checks in their order, on the characters that txt.dec reads; a line that passes
them has `lineTriple` as the four groups of each triple. -/
theorem txtDecChecksThenWritesThePayload : Obligations.TxtDecChecksThenWritesThePayload := by
  refine ⟨decodeInvertsEncode .txtDec, illegalWhere_unusedFieldSet .txtDec, ?_⟩
  rintro s m count c rfl hle hc hcount
  obtain rfl : c = readValue s.chr s.draws := funext hc
  have hline : s.chrLen.toNat ≠ 0 → (lineRead s).1.length ≠ 0 ∧ count = lineCount (lineRead s).1 := fun hne =>
    ⟨(length_lineRead s).trans_ne hne, hcount.trans (lineCount_lineRead hne).symm⟩
  refine ⟨fun h0 => execTxtDec_of_empty (BitVec.eq_of_toNat_eq h0),
    fun _ ⟨j, hj, hinvalid⟩ => execTxtDec_of_invalid hle hj hinvalid, ?_, ?_, ?_⟩
  · intro hne hvalid hover
    obtain ⟨hlen0, rfl⟩ := hline hne
    exact execTxtDec_failsWith_of_status hle
      (lineStatus_of_count_gt hlen0 (forall_mem_lineRead.2 hvalid) hover) (by decide)
  · intro hne hvalid hcap hlen
    obtain ⟨hlen0, rfl⟩ := hline hne
    have hlen : (lineRead s).1.length ≠ frameLength (lineCount (lineRead s).1) := (length_lineRead s).trans_ne hlen
    exact execTxtDec_failsWith_of_status hle
      (lineStatus_of_length_ne hlen0 (forall_mem_lineRead.2 hvalid) hcap hlen) (by decide)
  · intro hvalid hcap hlen
    obtain ⟨hlen0, rfl⟩ := hline (by omega)
    have hok : lineStatus s.acceptSpace (lineRead s).1 = .ok :=
      (lineStatus_eq_ok_iff _ _).2 ⟨hlen0, forall_mem_lineRead.2 hvalid, hcap, (length_lineRead s).trans hlen⟩
    refine ⟨_, execTxtDec_eq_afterTxtDec hle hok, rfl, ?_, fun k hk q hq => ?_, fun _ => afterTxtDec_entry_of_ge, rfl,
      rfl, fun _ => rfl, ⟨rfl, rfl, rfl, rfl⟩, congrArg Prod.snd (lineRead_eq s)⟩
    · rw [afterTxtDec_binLen, toNat_lengthOfCount (by omega)]
    · obtain rfl := hq.trans (lineTriple_lineRead (by omega)).symm
      exact ⟨afterTxtDec_entry_triple (i := 0) (by decide), afterTxtDec_entry_triple (i := 1) (by decide),
        afterTxtDec_entry_triple (i := 2) (by decide)⟩

/-! ### Decoding an encoded frame -/

section
variable {payload : List Byte}

theorem lineCount_encodeFrame (h : payload.length ≤ 45) : lineCount (encodeFrame payload) = payload.length := by
  rw [lineCount, getD_encodeFrame (frameLength_pos _), frameChar_zero, decChar_encChar]
  exact toNat_lengthOfCount (by omega)

theorem lineGroup_encodeFrame {k j : Nat} (hk : k < tripleCount payload.length) (hj : j < 4) :
    lineGroup (encodeFrame payload) (1 + j + 4 * k) = groupOf (tripleOf payload k) j := by
  rw [lineGroup, getD_encodeFrame (by rw [frameLength]; omega), frameChar_triple _ _ hj, decChar_encChar]

theorem lineTriple_encodeFrame {k : Nat} (hk : k < tripleCount payload.length) :
    lineTriple (encodeFrame payload) k = tripleOf payload k := by
  rw [← join_groups (tripleOf payload k), ← lineGroup_encodeFrame hk (j := 0) (by decide),
    ← lineGroup_encodeFrame hk (j := 1) (by decide), ← lineGroup_encodeFrame hk (j := 2) (by decide),
    ← lineGroup_encodeFrame hk (j := 3) (by decide)]
  rfl

/-- The two directions of the codec on byte sequences (R126). -/
theorem linePayload_encodeFrame (h : payload.length ≤ 45) : linePayload (encodeFrame payload) = payload := by
  have hcount := lineCount_encodeFrame h
  refine List.ext_getElem ((length_linePayload _).trans hcount) fun i _ hi => ?_
  rw [← List.getD_eq_getElem _ 0#8, ← List.getD_eq_getElem _ 0#8, getD_linePayload (by omega),
    lineTriple_encodeFrame (by rw [tripleCount]; omega), tripleByte_tripleOf _ _ (by omega), Nat.div_add_mod,
    paddedByte]

theorem lineStatus_encodeFrame (accepts : Bool) (h : payload.length ≤ 45) :
    lineStatus accepts (encodeFrame payload) = .ok := by
  have hlen := length_encodeFrame payload
  have hpos := frameLength_pos payload.length
  have hcount := lineCount_encodeFrame h
  refine (lineStatus_eq_ok_iff _ _).2 ⟨by omega, fun c hc => ?_, by omega, by rw [hcount, hlen]⟩
  obtain ⟨i, -, rfl⟩ := List.mem_map.1 hc
  obtain ⟨g, hg⟩ := exists_frameChar_eq_encChar payload i
  rw [hg, validChar_encChar]

end

section
variable {s : State}

/-- The line that txt.enc leaves for txt.dec is the frame (R122, R124). -/
theorem lineRead_afterTxtEnc (h : s.binLen.toNat ≤ 45) :
    (lineRead (afterTxtEnc s)).1 = encodeFrame (payloadRead s).1 := by
  rw [lineRead_eq, afterTxtEnc_chrLen h, encodeFrame, length_payloadRead]
  refine List.map_congr_left fun j hj => readValue_of_written _ (afterTxtEnc_entry_of_lt (List.mem_range.1 hj))

/-- Storing a payload of written entries where it was read from changes no entry. -/
theorem entry_writeFrom_payloadRead (hw : ∀ j < s.binLen.toNat, (s.bin.entry j).isSome = true) (j : Nat) :
    (s.bin.writeFrom 0 (payloadRead s).1).entry j = s.bin.entry j := by
  rw [Memory.entry_writeFrom, length_payloadRead]
  split_ifs with hj
  · obtain ⟨v, hv⟩ := Option.isSome_iff_exists.1 (hw j (by omega))
    have hread := paddedByte_payloadRead s j
    rw [if_pos (by omega), readValue_of_written _ hv, paddedByte] at hread
    rw [Nat.sub_zero, hread, hv]
  · rfl

end

/-- Settles O26: txt.enc leaves the frame as the line, which passes the checks whatever `ACCEPT_SPACE` is and whose
payload is the encoded one. -/
theorem encodeThenDecodeRestoresThePayload : Obligations.EncodeThenDecodeRestoresThePayload := by
  intro s hle hw
  have hlen : (payloadRead s).1.length ≤ 45 := (length_payloadRead s).trans_le hle
  have hline := lineRead_afterTxtEnc hle
  have hframe := frameLength_le hle
  have hok : lineStatus (afterTxtEnc s).acceptSpace (lineRead (afterTxtEnc s)).1 = .ok := by
    rw [hline, lineStatus_encodeFrame _ hlen]
  refine ⟨_, _, execTxtEnc_eq_afterTxtEnc hle, rfl,
    execTxtDec_eq_afterTxtDec ((afterTxtEnc_chrLen hle).trans_le hframe) hok, rfl, ?_, fun j => ?_⟩
  · rw [afterTxtDec_binLen, hline, lineCount_encodeFrame hlen, length_payloadRead, lengthOfCount, BitVec.ofNat_toNat,
      BitVec.setWidth_eq]
  · rw [afterTxtDec, hline, linePayload_encodeFrame hlen]
    exact entry_writeFrom_payloadRead hw j

/-! ### Lines that decode to one payload -/

theorem lineGroup_set {line : List Byte} {j : Nat} (hj : j < line.length) (c : Byte) (i : Nat) :
    lineGroup (line.set j c) i = if i = j then decChar c else lineGroup line i := by
  rw [lineGroup, lineGroup, List.getD_eq_getElem?_getD, List.getD_eq_getElem?_getD]
  split_ifs with hi
  · rw [hi, List.getElem?_set_self hj, Option.getD_some]
  · rw [List.getElem?_set_ne (Ne.symm hi)]

/-- Byte `j` of triple `k` depends on its groups `j` and `j + 1` alone (R125). -/
theorem tripleByte_lineTriple_congr {line line' : List Byte} {k j : Nat} (hj : j < 3)
    (hlow : lineGroup line' (1 + j + 4 * k) = lineGroup line (1 + j + 4 * k))
    (hhigh : lineGroup line' (2 + j + 4 * k) = lineGroup line (2 + j + 4 * k)) :
    tripleByte (lineTriple line' k) j = tripleByte (lineTriple line k) j := by
  interval_cases j <;> simp only [lineTriple, tripleByte_append] <;> rw [hlow, hhigh]

/-- Two lines have the same groups where they carry the payload of the first: a payload of `n` bytes is carried by the
count character and the `n + ceil(n/3)` groups after it, and the groups beyond those hold pad bits only (R123, R127). -/
def SamePayloadGroups (line line' : List Byte) : Prop :=
  ∀ i ≤ lineCount line + tripleCount (lineCount line), lineGroup line' i = lineGroup line i

theorem SamePayloadGroups.lineCount_eq {line line' : List Byte} (h : SamePayloadGroups line line') :
    lineCount line' = lineCount line := congrArg BitVec.toNat (h 0 (Nat.zero_le _))

theorem SamePayloadGroups.linePayload_eq {line line' : List Byte} (h : SamePayloadGroups line line') :
    linePayload line' = linePayload line := by
  rw [linePayload, linePayload, h.lineCount_eq]
  refine List.map_congr_left fun i hi => ?_
  have hi : i < lineCount line := List.mem_range.1 hi
  rw [SamePayloadGroups, tripleCount] at h
  exact tripleByte_lineTriple_congr (by omega) (h _ (by omega)) (h _ (by omega))

/-! ### A written character of the line replaced -/

/-- A write to a written entry leaves the draws of a read as they are (R26). -/
theorem Memory.unwrittenBelow_write {m : Memory} {j : Nat} (hj : (m.entry j).isSome = true) (v : Byte) (n : Nat) :
    (m.write j v).unwrittenBelow n = m.unwrittenBelow n := by
  induction n with
  | zero => rfl
  | succ n ih =>
    rw [Memory.unwrittenBelow_succ, Memory.unwrittenBelow_succ, ih, Memory.entry_write]
    by_cases hn : n = j
    · subst hn
      rw [if_pos rfl, Option.isNone_some, ← Option.not_isSome, hj]
      rfl
    · rw [if_neg hn]

theorem readValue_write {m : Memory} {j : Nat} (hj : (m.entry j).isSome = true) (v : Byte) (d i : Nat) :
    readValue (m.write j v) d i = if i = j then v else readValue m d i := by
  rw [readValue, Memory.unwrittenBelow_write hj, Memory.entry_write]
  split_ifs
  · rfl
  · rfl

/-- Writing a written character of the line sets it in the line that txt.dec reads. -/
theorem lineRead_setChr_write {s : State} {j : Nat} (hj : (s.chr.entry j).isSome = true) (c : Byte) :
    (lineRead (s.setChr (s.chr.write j c))).1 = (lineRead s).1.set j c := by
  refine List.ext_getElem (by simp) fun i hi _ => ?_
  simp [lineRead_eq, readValue_write hj, List.getElem_set, eq_comm (a := j)]

section
variable {s t : State}

/-- A txt.dec that answers `OK` read a line that passes the checks (R125). -/
theorem eq_afterTxtDec_of_ok (h : execTxtDec s = .next t) (hr : t.outstanding = some ⟨.ok, 0#32⟩) :
    s.chrLen.toNat ≤ 61 ∧ lineStatus s.acceptSpace (lineRead s).1 = .ok ∧ t = afterTxtDec s := by
  obtain ⟨hle, ⟨hok, rfl⟩ | ⟨hne, rfl⟩⟩ := execTxtDec_next h
  · exact ⟨hle, hok, rfl⟩
  · exact absurd (congrArg Response.status (Option.some.inj hr)) hne

/-- With another text buffer, in which the line is valid and has the same groups where they carry the payload, txt.dec
gives the same payload. -/
theorem execTxtDec_setChr_same {m : Memory} (h : execTxtDec s = .next t) (hr : t.outstanding = some ⟨.ok, 0#32⟩)
    (hvalid : ∀ c ∈ (lineRead (s.setChr m)).1, validChar s.acceptSpace c = true)
    (hgroups : SamePayloadGroups (lineRead s).1 (lineRead (s.setChr m)).1) :
    ∃ t', execTxtDec (s.setChr m) = .next t' ∧ t'.outstanding = some ⟨.ok, 0#32⟩ ∧ t'.binLen = t.binLen ∧
      SameBin t t' := by
  obtain ⟨hle, hok, rfl⟩ := eq_afterTxtDec_of_ok h hr
  obtain ⟨hlen0, -, hcap, hlen⟩ := (lineStatus_eq_ok_iff _ _).1 hok
  have hlength : (lineRead (s.setChr m)).1.length = (lineRead s).1.length := by simp
  have hok' : lineStatus s.acceptSpace (lineRead (s.setChr m)).1 = .ok := by
    rw [lineStatus_eq_ok_iff, hlength, hgroups.lineCount_eq]
    exact ⟨hlen0, hvalid, hcap, hlen⟩
  refine ⟨_, execTxtDec_eq_afterTxtDec (s := s.setChr m) hle hok', rfl, ?_, fun j => ?_⟩
  · rw [afterTxtDec_binLen, afterTxtDec_binLen, hgroups.lineCount_eq]
  · rw [afterTxtDec, hgroups.linePayload_eq]
    rfl

/-- The last two characters of a line whose count is one more than a multiple of 3 are beyond its payload's groups. -/
theorem execTxtDec_of_pad_chars (x y : Byte) (hw : ∀ j < s.chrLen.toNat, (s.chr.entry j).isSome = true)
    (h : execTxtDec s = .next t) (hr : t.outstanding = some ⟨.ok, 0#32⟩) (hmod : t.binLen.toNat % 3 = 1)
    (hx : validChar s.acceptSpace x = true) (hy : validChar s.acceptSpace y = true) :
    ∃ t', execTxtDec (s.setChr ((s.chr.write (s.chrLen.toNat - 2) x).write (s.chrLen.toNat - 1) y)) = .next t' ∧
      t'.outstanding = some ⟨.ok, 0#32⟩ ∧ t'.binLen = t.binLen ∧ SameBin t t' := by
  obtain ⟨-, hok, rfl⟩ := eq_afterTxtDec_of_ok h hr
  obtain ⟨-, hvalid, hcap, hlen⟩ := (lineStatus_eq_ok_iff _ _).1 hok
  rw [afterTxtDec_binLen, toNat_lengthOfCount (by omega)] at hmod
  have hlength := length_lineRead s
  rw [frameLength, tripleCount] at hlen
  have hw' : ((s.chr.write (s.chrLen.toNat - 2) x).entry (s.chrLen.toNat - 1)).isSome = true := by
    rw [Memory.entry_write_of_ne _ _ (by omega)]
    exact hw _ (by omega)
  have hline : (lineRead (s.setChr ((s.chr.write (s.chrLen.toNat - 2) x).write (s.chrLen.toNat - 1) y))).1 =
      ((lineRead s).1.set (s.chrLen.toNat - 2) x).set (s.chrLen.toNat - 1) y :=
    (lineRead_setChr_write (s := s.setChr (s.chr.write (s.chrLen.toNat - 2) x)) hw' y).trans
      (congrArg (List.set · _ y) (lineRead_setChr_write (hw _ (by omega)) x))
  refine execTxtDec_setChr_same h hr (fun c hc => ?_) fun i hi => ?_
  · rw [hline] at hc
    obtain hc | rfl := List.mem_or_eq_of_mem_set hc
    · obtain hc | rfl := List.mem_or_eq_of_mem_set hc
      · exact hvalid c hc
      · exact hx
    · exact hy
  · rw [tripleCount] at hi
    rw [hline, lineGroup_set (by rw [List.length_set]; omega), if_neg (by omega), lineGroup_set (by omega),
      if_neg (by omega)]

/-- A space decodes to the group of the backtick. -/
theorem execTxtDec_of_space {j : Nat} (haccepts : s.acceptSpace = true) (hj : j < s.chrLen.toNat)
    (hentry : s.chr.entry j = some 0x60#8) (h : execTxtDec s = .next t) (hr : t.outstanding = some ⟨.ok, 0#32⟩) :
    ∃ t', execTxtDec (s.setChr (s.chr.write j 0x20#8)) = .next t' ∧ t'.outstanding = some ⟨.ok, 0#32⟩ ∧
      t'.binLen = t.binLen ∧ SameBin t t' := by
  obtain ⟨-, hok, -⟩ := eq_afterTxtDec_of_ok h hr
  obtain ⟨-, hvalid, -, -⟩ := (lineStatus_eq_ok_iff _ _).1 hok
  have hline := lineRead_setChr_write (hentry ▸ rfl : (s.chr.entry j).isSome = true) 0x20#8
  refine execTxtDec_setChr_same h hr (fun c hc => ?_) fun i _ => ?_
  · rw [hline] at hc
    obtain hc | rfl := List.mem_or_eq_of_mem_set hc
    · exact hvalid c hc
    · rw [haccepts]
      rfl
  · rw [hline, lineGroup_set (by rwa [length_lineRead])]
    split_ifs with hi
    · subst hi
      rw [lineGroup, getD_lineRead hj, readValue_of_written _ hentry]
      rfl
    · rfl

theorem execTxtEnc_entry_ne_space (h : execTxtEnc s = .next t) {j : Nat} (hj : j < t.chrLen.toNat) :
    t.chr.entry j ≠ some 0x20#8 := by
  have hle := execTxtEnc_next h
  obtain rfl := Host.Outcome.next.inj ((execTxtEnc_eq_afterTxtEnc hle).symm.trans h)
  obtain ⟨g, hg⟩ := exists_frameChar_eq_encChar (payloadRead s).1 j
  rw [afterTxtEnc_entry_of_lt (afterTxtEnc_chrLen hle ▸ hj), hg]
  exact fun hspace => encChar_ne_space g (Option.some.inj hspace)

end

/-- Settles O27: pad bits are in no group that carries the payload, a space has the group of a backtick, and no
character of a frame is a space. -/
theorem decodeIgnoresPadBitsAndTakesSpaces : Obligations.DecodeIgnoresPadBitsAndTakesSpaces :=
  ⟨fun _ _ x y _ hw h hr hmod hx hy => execTxtDec_of_pad_chars x y hw h hr hmod hx hy,
    fun _ _ _ haccepts _ hj hentry h hr => execTxtDec_of_space haccepts hj hentry h hr,
    fun _ _ h _ hj => execTxtEnc_entry_ne_space h hj⟩

end Sys2Proof.Machine
end

section
/-! PROOFS. Statuses (60_exceptions.md): the status of every command word as a function of the word and the state, the
causes of each status, and what a failing command leaves. -/

namespace Sys2Proof.Machine

/-! ### The status of a command -/

/-- The status of a command (R154, R125): txt.dec has that of the line it reads, every other one answers `RANGE` for an
operand out of range and `OK` otherwise. -/
def commandStatus (i : Instr) (s : State) : Status :=
  match i with
  | .txtDec => lineStatus s.acceptSpace (lineRead s).1
  | i => if i.inRange then .ok else .range

/-- A command behind a range check answers the status of the check. -/
theorem status_of_unlessRange {st : Status} {data : Word} {s u t : State}
    (h : unlessRange st s (respond .ok data u) = .next t) : ∃ d, t.outstanding = some ⟨st, d⟩ := by
  cases st with
  | ok | illegal | range | decChar | decCount | decLength => exact ⟨_, congrArg State.outstanding (respond_eq_next h)⟩

/-- A command that answers has the status `commandStatus`. -/
theorem exec_status {i : Instr} {s t : State} (h : exec i s = .next t) :
    ∃ d, t.outstanding = some ⟨commandStatus i s, d⟩ := by
  cases i with
  | crcInit | crcByte | crcRes | binGetlen | chrGetlen => exact ⟨_, congrArg State.outstanding (respond_eq_next h)⟩
  | binWr | binRd | binLen | chrWr | chrRd | chrLen => exact status_of_unlessRange h
  | txtEnc =>
    have henc := (execTxtEnc_of_le (execTxtEnc_next h)).symm.trans h
    exact ⟨_, congrArg State.outstanding (respond_eq_next henc)⟩
  | txtDec =>
    obtain ⟨-, ⟨hok, rfl⟩ | ⟨-, rfl⟩⟩ := execTxtDec_next h
    · exact ⟨_, by rw [commandStatus, hok]; rfl⟩
    · exact ⟨_, rfl⟩

/-- Only txt.dec has a status that its operands do not decide (R154). -/
theorem commandStatus_of_ne_txtDec {i : Instr} (s : State) (hne : i ≠ .txtDec) :
    commandStatus i s = if i.inRange then .ok else .range := by
  cases i with
  | txtDec => exact absurd rfl hne
  | crcInit | crcByte | crcRes | binWr | binRd | binLen | binGetlen | chrWr | chrRd | chrLen | chrGetlen | txtEnc => rfl

theorem commandStatus_of_inRange {i : Instr} (s : State) (h : i.inRange = true) (hne : i ≠ .txtDec) :
    commandStatus i s = .ok := by
  rw [commandStatus_of_ne_txtDec s hne, if_pos h]

theorem commandStatus_of_not_inRange {i : Instr} (s : State) (h : i.inRange = false) : commandStatus i s = .range := by
  have hne : i ≠ .txtDec := by rintro rfl; cases h
  rw [commandStatus_of_ne_txtDec s hne, if_neg (Bool.eq_false_iff.1 h)]

/-- A line has no status but those of its own checks (R125). -/
theorem lineStatus_mem (accepts : Bool) (line : List Byte) :
    lineStatus accepts line ∈ [Status.ok, .decChar, .decCount, .decLength] := by
  unfold lineStatus
  split_ifs <;> decide

/-- All that the status of a command can be. -/
theorem commandStatus_cases (i : Instr) (s : State) :
    (i.inRange = false ∧ commandStatus i s = .range) ∨ commandStatus i s = .ok ∨
    (i = .txtDec ∧ commandStatus i s ∈ [Status.decChar, .decCount, .decLength]) := by
  by_cases hdec : i = .txtDec
  · subst hdec
    obtain hok | hfails := List.mem_cons.1 (lineStatus_mem s.acceptSpace (lineRead s).1)
    · exact .inr (.inl hok)
    · exact .inr (.inr ⟨rfl, hfails⟩)
  · cases hrange : i.inRange with
    | false => exact .inl ⟨rfl, commandStatus_of_not_inRange s hrange⟩
    | true => exact .inr (.inl (commandStatus_of_inRange s hrange hdec))

/-! ### `RANGE` -/

/-- The operands out of range (R154). -/
theorem inRange_eq_false_iff (i : Instr) : i.inRange = false ↔
    (∃ idx imm, i = .binWr idx imm ∧ 45 ≤ idx.toNat) ∨ (∃ idx, i = .binRd idx ∧ 45 ≤ idx.toNat) ∨
    (∃ idx imm, i = .chrWr idx imm ∧ 61 ≤ idx.toNat) ∨ (∃ idx, i = .chrRd idx ∧ 61 ≤ idx.toNat) ∨
    (∃ imm, i = .binLen imm ∧ 45 < imm.toNat) ∨ (∃ imm, i = .chrLen imm ∧ 61 < imm.toNat) := by
  cases i with
  | binWr | binRd | binLen | chrWr | chrRd | chrLen =>
    simp only [Instr.inRange, decide_eq_false_iff_not]
    simp [Config.nBin, Config.nChr]
  | crcInit | crcByte | crcRes | binGetlen | chrGetlen | txtEnc | txtDec => simp [Instr.inRange]

theorem exec_of_not_inRange {i : Instr} (s : State) (h : i.inRange = false) : exec i s = raiseStatus .range s := by
  obtain ⟨idx, imm, rfl, hi⟩ | ⟨idx, rfl, hi⟩ | ⟨idx, imm, rfl, hi⟩ | ⟨idx, rfl, hi⟩ | ⟨imm, rfl, hi⟩ |
    ⟨imm, rfl, hi⟩ := (inRange_eq_false_iff i).1 h
  · exact execBinWr_of_ge imm s hi
  · exact execBinRd_of_ge s hi
  · exact execChrWr_of_ge imm s hi
  · exact execChrRd_of_ge s hi
  · exact execBinLen_of_gt s hi
  · exact execChrLen_of_gt s hi

/-- The commands that raise `RANGE` (R150). -/
theorem opcode_mem_of_not_inRange {i : Instr} (h : i.inRange = false) :
    i.opcode ∈ [Opcode.binWr, .binRd, .binLen, .chrWr, .chrRd, .chrLen] := by
  cases i with
  | binWr | binRd | binLen | chrWr | chrRd | chrLen => simp [Instr.opcode]
  | crcInit | crcByte | crcRes | binGetlen | chrGetlen | txtEnc | txtDec => cases h

theorem commandStatus_eq_range_iff (i : Instr) (s : State) : commandStatus i s = .range ↔ i.inRange = false := by
  refine ⟨fun h => ?_, commandStatus_of_not_inRange s⟩
  obtain ⟨hrange, -⟩ | hok | ⟨-, hdec⟩ := commandStatus_cases i s
  · exact hrange
  · exact absurd (hok.symm.trans h) (by decide)
  · exact absurd (h ▸ hdec) (by decide)

/-- Settles O33: `RANGE` is the status of a command exactly when its operand is out of range, and such a command answers
in every state. -/
theorem rangeExactlyOutsideTheBuffers : Obligations.RangeExactlyOutsideTheBuffers := by
  intro i s
  rw [← inRange_eq_false_iff]
  constructor
  · rintro ⟨t, d, h, hout⟩
    obtain ⟨d', hd'⟩ := exec_status h
    rw [← commandStatus_eq_range_iff i s]
    exact congrArg Response.status (Option.some.inj (hd'.symm.trans hout))
  · intro h
    exact ⟨_, _, exec_of_not_inRange s h, rfl⟩

/-! ### The status of a command word -/

/-- The status of a command word (R152): that of its command, or `ILLEGAL`. -/
def wordStatus (w : Word) (s : State) : Status :=
  match decode w with
  | .ok i => commandStatus i s
  | .error _ => .illegal

section
variable {w : Word}

theorem wordStatus_of_ok {i : Instr} (s : State) (h : decode w = .ok i) : wordStatus w s = commandStatus i s := by
  rw [wordStatus, h]

theorem wordStatus_of_error {e : Illegal} (s : State) (h : decode w = .error e) : wordStatus w s = .illegal := by
  rw [wordStatus, h]

/-- A word that answers has the status `wordStatus`. -/
theorem runWord_status {s t : State} (h : runWord w s = .next t) : ∃ d, t.outstanding = some ⟨wordStatus w s, d⟩ := by
  cases hd : decode w with
  | ok i =>
    rw [wordStatus_of_ok s hd]
    exact exec_status ((runWord_of_ok s hd).symm.trans h)
  | error e =>
    rw [wordStatus_of_error s hd, respond_eq_next ((runWord_of_error s hd).symm.trans h)]
    exact ⟨_, rfl⟩

theorem status_eq_wordStatus {s t : State} {r : Response} (h : runWord w s = .next t) (hr : t.outstanding = some r) :
    r.status = wordStatus w s := by
  obtain ⟨d, hd⟩ := runWord_status h
  exact congrArg Response.status (Option.some.inj (hr.symm.trans hd))

theorem unselected_of_decode_error {e : Illegal} (h : decode w = .error e) :
    ∀ row ∈ opcodeTable, row.selects w = false := by
  intro row hrow
  rw [Bool.eq_false_iff]
  intro hsel
  exact absurd ((decode_of_selects hrow hsel).symm.trans h) (by simp)

theorem wordStatus_eq_illegal_iff (w : Word) (s : State) :
    wordStatus w s = .illegal ↔ ∀ row ∈ opcodeTable, row.selects w = false := by
  constructor
  · intro h
    cases hd : decode w with
    | error e => exact unselected_of_decode_error hd
    | ok i =>
      rw [wordStatus_of_ok s hd] at h
      obtain ⟨-, hst⟩ | hst | ⟨-, hst⟩ := commandStatus_cases i s
      all_goals exact absurd hst (by rw [h]; decide)
  · intro h
    obtain ⟨e, he⟩ := decode_of_unselected h
    exact wordStatus_of_error s he

theorem exists_not_inRange_of_wordStatus_eq_range {s : State} (h : wordStatus w s = .range) :
    ∃ i, decode w = .ok i ∧ i.inRange = false := by
  cases hd : decode w with
  | ok i => exact ⟨i, rfl, (commandStatus_eq_range_iff i s).1 ((wordStatus_of_ok s hd).symm.trans h)⟩
  | error e => exact absurd ((wordStatus_of_error s hd).symm.trans h) (by decide)

/-- The three statuses of a line are raised by txt.dec alone (R150). -/
theorem decode_eq_txtDec_of_wordStatus {s : State} {st : Status} (h : wordStatus w s = st)
    (hst : st ∈ [Status.decChar, .decCount, .decLength]) :
    decode w = .ok .txtDec ∧ lineStatus s.acceptSpace (lineRead s).1 = st := by
  subst h
  cases hd : decode w with
  | error e => exact absurd hst (by rw [wordStatus_of_error s hd]; decide)
  | ok i =>
    rw [wordStatus_of_ok s hd] at hst ⊢
    obtain ⟨-, hrange⟩ | hok | ⟨rfl, -⟩ := commandStatus_cases i s
    · exact absurd hst (by rw [hrange]; decide)
    · exact absurd hst (by rw [hok]; decide)
    · exact ⟨rfl, rfl⟩

end

/-- Settles O32: `ILLEGAL` is the status of a word exactly when no row selects it, and such a word answers it in every
state. -/
theorem illegalExactlyForUnselectedWords : Obligations.IllegalExactlyForUnselectedWords := by
  intro w s
  refine ⟨⟨?_, fun h => ?_⟩, fun h => runWord_of_unselected h s, (unselected_iff_reserved_or_unused w).2⟩
  · rintro ⟨t, d, h, hout⟩
    exact (wordStatus_eq_illegal_iff w s).1 (status_eq_wordStatus h hout).symm
  · obtain ⟨t, ht, hout, -⟩ := runWord_of_unselected h s
    exact ⟨t, _, ht, hout⟩

/-! ### The status of the line that txt.dec reads -/

/-- The checks of txt.dec in their order (R125, R152), on what it reads from the entries of the line. -/
theorem lineStatus_lineRead (s : State) : lineStatus s.acceptSpace (lineRead s).1 =
    if s.chrLen.toNat = 0 then .decLength
    else if ∃ j < s.chrLen.toNat, validChar s.acceptSpace (readValue s.chr s.draws j) = false then .decChar
    else if 45 < (decChar (readValue s.chr s.draws 0)).toNat then .decCount
    else if s.chrLen.toNat ≠ 1 + 4 * (((decChar (readValue s.chr s.draws 0)).toNat + 2) / 3) then .decLength
    else .ok := by
  by_cases h0 : s.chrLen.toNat = 0
  · rw [if_pos h0, lineStatus, if_pos ((length_lineRead s).trans h0)]
  rw [if_neg h0]
  by_cases hbad : ∃ j < s.chrLen.toNat, validChar s.acceptSpace (readValue s.chr s.draws j) = false
  · rw [if_pos hbad]
    obtain ⟨j, hj, hinvalid⟩ := hbad
    exact lineStatus_of_invalid (readValue_mem_lineRead hj) hinvalid
  · rw [if_neg hbad]
    have hvalid : ∀ j < s.chrLen.toNat, validChar s.acceptSpace (readValue s.chr s.draws j) = true := by
      simpa using hbad
    rw [lineStatus_of_valid ((length_lineRead s).trans_ne h0) (forall_mem_lineRead.2 hvalid), lineCount_lineRead h0,
      length_lineRead]
    rfl

section
variable {s : State}

/-- The cause of `DEC_CHAR` (R150). -/
theorem exists_invalid_of_lineStatus_eq_decChar (h : lineStatus s.acceptSpace (lineRead s).1 = .decChar) :
    ∃ j < s.chrLen.toNat, validChar s.acceptSpace (readValue s.chr s.draws j) = false := by
  rw [lineStatus_lineRead] at h
  split_ifs at h with _ hbad
  exact hbad

/-- The cause of `DEC_COUNT` (R150). -/
theorem count_gt_of_lineStatus_eq_decCount (h : lineStatus s.acceptSpace (lineRead s).1 = .decCount) :
    45 < (decChar (readValue s.chr s.draws 0)).toNat := by
  rw [lineStatus_lineRead] at h
  split_ifs at h with _ _ hcount
  exact hcount

/-- The causes of `DEC_LENGTH` (R150). -/
theorem length_ne_of_lineStatus_eq_decLength (h : lineStatus s.acceptSpace (lineRead s).1 = .decLength) :
    s.chrLen = 0#6 ∨ s.chrLen.toNat ≠ 1 + 4 * (((decChar (readValue s.chr s.draws 0)).toNat + 2) / 3) := by
  rw [lineStatus_lineRead] at h
  split_ifs at h with h0 _ _ hlen
  · exact .inl (BitVec.eq_of_toNat_eq h0)
  · exact .inr hlen

end

/-! ### What a failing command leaves -/

/-- The only effect with a status other than `OK` writes nothing but the draws and the response (R151). -/
theorem Effect.eq_of_fails {s t : State} {i : Instr} {r : Response} (h : Effect s i t) (hr : t.outstanding = some r)
    (hne : r.status ≠ .ok) : t = (s.setDraws t.draws).setOutstanding (some ⟨r.status, 0#32⟩) := by
  cases h with
  | fails i st d hst =>
    obtain rfl := Option.some.inj hr
    rfl
  | reads | crcInit | crcByte | binWr | binLen | chrWr | chrLen | txtEnc | txtDec =>
    obtain rfl := Option.some.inj hr
    exact absurd rfl hne

section
variable {w : Word} {s t : State} {r : Response} (h : runWord w s = .next t) (hr : t.outstanding = some r)
  (hne : r.status ≠ .ok)
include h hr hne

/-- A command word that fails leaves the state from before it, but for the draws and the response (R151). -/
theorem runWord_eq_of_fails : t = (s.setDraws t.draws).setOutstanding (some ⟨r.status, 0#32⟩) := by
  obtain ⟨i, -, he⟩ | ⟨e, -, rfl⟩ := runWord_cases h
  · exact he.eq_of_fails hr hne
  · obtain rfl := Option.some.inj hr
    rfl

theorem data_eq_zero_of_fails : r.data = 0#32 := by
  have ht := congrArg State.outstanding (runWord_eq_of_fails h hr hne)
  exact congrArg Response.data (Option.some.inj (hr.symm.trans ht))

end

/-- The response port has no part in what a command word does (R63, R155). -/
theorem runWord_setOutstanding (w : Word) (s : State) (r : Option Response) :
    runWord w (s.setOutstanding r) = runWord w s := by
  cases hd : decode w with
  | ok i => rw [runWord_of_ok _ hd, runWord_of_ok _ hd, exec_setOutstanding]
  | error e => rw [runWord_of_error _ hd, runWord_of_error _ hd]; rfl

/-- Settles O30: a failing command leaves the state from before it, but for the draws and the response. -/
theorem failingCommandsWriteNothing : Obligations.FailingCommandsWriteNothing := by
  intro w s t r h hr hne
  refine ⟨data_eq_zero_of_fails h hr hne, ?_⟩
  rw [runWord_eq_of_fails h hr hne]
  exact changesNothing_setDraws s _ _

/-- Settles O35: a failing command that answers no draw leaves only its response, which no command reads. -/
theorem noFailureIsSticky : Obligations.NoFailureIsSticky := by
  intro w w' s t r h hr hne hdraws
  rw [runWord_eq_of_fails h hr hne, hdraws, runWord_setOutstanding]
  rfl

/-! ### The causes and their order -/

theorem Status.toNat_code_le (st : Status) : st.code.toNat ≤ 5 := by cases st <;> decide

/-- Settles O29: the status of an answer is `wordStatus`, and each value of it has its cause. -/
theorem statusCodesAndTheirCauses : Obligations.StatusCodesAndTheirCauses := by
  refine ⟨⟨rfl, rfl, rfl, rfl, rfl, rfl⟩, fun w s t h => ?_⟩
  obtain ⟨⟨r, hr⟩, -⟩ := runWord_answers h
  have hst : wordStatus w s = r.status := (status_eq_wordStatus h hr).symm
  refine ⟨r, hr, r.status.toNat_code_le, data_eq_zero_of_fails h hr, fun hill => ?_, fun hrange => ?_, fun hchar => ?_,
    fun hcount => ?_, fun hlen => ?_⟩
  · exact (wordStatus_eq_illegal_iff w s).1 (hst.trans hill)
  · obtain ⟨i, hi, hout⟩ := exists_not_inRange_of_wordStatus_eq_range (hst.trans hrange)
    exact ⟨i, hi, hout, opcode_mem_of_not_inRange hout⟩
  · exact (decode_eq_txtDec_of_wordStatus (hst.trans hchar) (by decide)).imp_right
      exists_invalid_of_lineStatus_eq_decChar
  · exact (decode_eq_txtDec_of_wordStatus (hst.trans hcount) (by decide)).imp_right count_gt_of_lineStatus_eq_decCount
  · exact (decode_eq_txtDec_of_wordStatus (hst.trans hlen) (by decide)).imp_right length_ne_of_lineStatus_eq_decLength

/-- Settles O31: `wordStatus` is the one status of a word, and its branches are the causes in their order. -/
theorem oneStatusByPriority : Obligations.OneStatusByPriority := by
  rintro w s m count c hbin rfl hchr hc rfl
  obtain rfl : c = readValue s.chr s.draws := funext hc
  obtain ⟨t, ht⟩ := runWord_total w hbin hchr
  obtain ⟨d, hd⟩ := runWord_status ht
  refine ⟨t, wordStatus w s, d, ht, hd, (wordStatus_eq_illegal_iff w s).2, fun i hi hout => ?_,
    fun i hi hin hne => ?_, fun hdec => ?_⟩
  · rw [wordStatus_of_ok s hi, commandStatus_of_not_inRange s hout]
  · rw [wordStatus_of_ok s hi, commandStatus_of_inRange s hin hne]
  · rw [wordStatus_of_ok s hdec]
    exact lineStatus_lineRead s

end Sys2Proof.Machine
end

section
/-! PROOFS. Reset and hazards (70_reset_and_hazards.md): what reset leaves and when the block takes a command after it,
where a host that breaks its duties is stuck, and what a command sees of the one before it. -/

namespace Sys2Proof.Machine

/-! ### A command sees the one before it -/

section
variable {s : State}

/-- Straight after txt.enc, txt.dec stores the payload that was encoded (R124, R125, R183). -/
theorem execTxtDec_afterTxtEnc (h : s.binLen.toNat ≤ 45) : execTxtDec (afterTxtEnc s) =
    respond .ok 0#32 (storePayload (payloadRead s).1 ((afterTxtEnc s).setDraws (lineRead (afterTxtEnc s)).2)) := by
  have hpayload : (payloadRead s).1.length ≤ 45 := (length_payloadRead s).trans_le h
  have hline := lineRead_afterTxtEnc h
  have hok : lineStatus (afterTxtEnc s).acceptSpace (lineRead (afterTxtEnc s)).1 = .ok := by
    rw [hline, lineStatus_encodeFrame _ hpayload]
  rw [execTxtDec_of_ok ((afterTxtEnc_chrLen h).trans_le (frameLength_le h)) hok, hline,
    linePayload_encodeFrame hpayload]

/-- The length of the payload that is read is `BIN_LEN` (R124). -/
theorem lengthOfCount_length_payloadRead (s : State) : lengthOfCount (payloadRead s).1.length = s.binLen := by
  rw [length_payloadRead, lengthOfCount, BitVec.ofNat_toNat, BitVec.setWidth_eq]

/-- Entry `j` of a stored payload is what the read of the payload gave for it (R26). -/
theorem entry_writeFrom_payloadRead_of_lt (m : Memory) {j : Nat} (hj : j < s.binLen.toNat) :
    (m.writeFrom 0 (payloadRead s).1).entry j = some (readValue s.bin s.draws j) := by
  have hread := paddedByte_payloadRead s j
  rw [if_pos hj, paddedByte] at hread
  rw [Memory.entry_writeFrom, length_payloadRead, if_pos (by omega), Nat.sub_zero, hread]

/-- txt.dec leaves at most 45 bytes, and each of them is written (R125, R28). -/
theorem afterTxtDec_written (hok : lineStatus s.acceptSpace (lineRead s).1 = .ok) {j : Nat}
    (hj : j < (afterTxtDec s).binLen.toNat) : j < 45 ∧ ∃ v, (afterTxtDec s).bin.entry j = some v := by
  obtain ⟨-, -, hcap, -⟩ := (lineStatus_eq_ok_iff _ _).1 hok
  rw [afterTxtDec_binLen, toNat_lengthOfCount (by omega)] at hj
  have hentry := afterTxtDec_entry_triple (s := s) (k := j / 3) (i := j % 3) (by omega) (by omega)
  rw [Nat.div_add_mod] at hentry
  exact ⟨by omega, _, hentry⟩

/-- A bin.rd of a written entry answers it (R101). -/
theorem exec_binRd_answers {j : Nat} {v : Byte} (hj : j < 45) (hentry : s.bin.entry j = some v) :
    ∃ u, exec (.binRd (BitVec.ofNat 8 j)) s = .next u ∧ u.outstanding = some ⟨.ok, v.setWidth 32⟩ := by
  have hidx : (BitVec.ofNat 8 j).toNat = j := toNat_operandByte (by omega)
  exact ⟨_, exec_binRd_of_written (hidx.trans_lt hj) (hidx.symm ▸ hentry), rfl⟩

end

/-- Settles O40: crc.byte leaves the folded `ACC`, the line that txt.enc leaves decodes to the payload it read, and the
entries below the `BIN_LEN` that txt.dec leaves are written. -/
theorem threePairsSeeTheCommandBefore : Obligations.ThreePairsSeeTheCommandBefore := by
  refine ⟨fun s imm => ?_, fun s hle => ?_, fun s t h hr j hj => ?_⟩
  · obtain ⟨u, hu, hanswer⟩ := exec_crcRes_of_acc
      (s := (s.setAcc (crcStep8 s.acc imm)).setOutstanding (some ⟨.ok, 0#32⟩)) rfl
    exact ⟨_, u, rfl, hu, hanswer⟩
  · exact ⟨_, _, execTxtEnc_eq_afterTxtEnc hle, execTxtDec_afterTxtEnc hle, rfl, lengthOfCount_length_payloadRead s,
      fun _ => entry_writeFrom_payloadRead_of_lt _⟩
  · obtain ⟨-, hok, rfl⟩ := eq_afterTxtDec_of_ok h hr
    obtain ⟨h45, v, hentry⟩ := afterTxtDec_written hok hj
    obtain ⟨u, hu, hanswer⟩ := exec_binRd_answers h45 hentry
    exact ⟨v, u, hentry, hu, hanswer⟩

/-! ### A host that breaks a duty -/

section
variable {s : State} {w : Word} {rest : List HostEvent}

theorem step_of_command_in_reset (hscript : s.script = .command w :: rest) (hreset : s.inReset = true) :
    step s = .fault .commandDuringReset := by
  simp [step, nextAct, hscript, hostAct, issueCommand, hreset]

theorem step_of_command_before_response {r : Response} (hscript : s.script = .command w :: rest)
    (hreset : s.inReset = false) (hr : s.outstanding = some r) : step s = .fault .commandBeforeResponse := by
  simp [step, nextAct, hscript, hostAct, issueCommand, hreset, hr]

theorem step_of_receive_without_response (hscript : s.script = .receive :: rest) (hr : s.outstanding = none) :
    step s = .fault .noResponse := by
  simp [step, nextAct, hscript, hostAct, receiveResponse, hr]

end

/-- Settles O44: one stuck step for each broken duty. -/
theorem hostDutiesHaveNoStep : Obligations.HostDutiesHaveNoStep :=
  ⟨fun _ _ _ => step_of_command_in_reset, fun _ _ _ _ => step_of_command_before_response,
    fun _ _ => step_of_receive_without_response⟩

/-! ### Reset -/

/-- Settles O45: the empty buffers hold no entry, and asserting reset is `resetBlock`. -/
theorem resetLeavesTheResetState : Obligations.ResetLeavesTheResetState :=
  ⟨fun _ => ⟨rfl, rfl, rfl, Memory.entry_nil, Memory.entry_nil, rfl⟩, rfl, fun _ _ hscript =>
    ⟨_, step_of_assertReset hscript, rfl, rfl, rfl, Memory.entry_nil, Memory.entry_nil, rfl, rfl, rfl, rfl, rfl⟩⟩

/-- Asserting and releasing reset leaves the reset block with its reset input released (R180, R182). -/
theorem runSteps_reset {s : State} {rest : List HostEvent} (h : s.script = .assertReset :: .releaseReset :: rest) :
    runSteps 2 s = .next (((resetBlock (s.setScript (.releaseReset :: rest))).setScript rest).setInReset false) := by
  rw [runSteps_succ 1 (step_of_assertReset h), runSteps_succ 0 (step_of_releaseReset rfl), runSteps]

/-- Settles O46: the block after reset is released has no response outstanding. -/
theorem readyAsSoonAsResetIsReleased : Obligations.ReadyAsSoonAsResetIsReleased := fun _ _ hscript =>
  ⟨_, runSteps_reset hscript, rfl, rfl, rfl⟩

/-- Settles O49: the reset values of the lengths and the buffers meet the invariant. -/
theorem resetMeetsTheLengthBounds : Obligations.ResetMeetsTheLengthBounds :=
  ⟨inv_of_reset_values rfl rfl rfl rfl, fun _ _ => inv_of_reset_values rfl rfl rfl rfl⟩

end Sys2Proof.Machine
end
